-- ==== Sys2Proof/Word.lean ====
section
/-! DEFINITION. The widths of FrameCodec-HW's values (spec/00_scope.md R7, R8): bytes of a frame, 16-bit
CRC and header values, 32-bit bus words. -/

namespace Sys2Proof

/-- One byte of a frame buffer (R38, R39). -/
abbrev Byte := BitVec 8

/-- A 16-bit value: the CRC register, a checksum, the start marker (R7, R31). -/
abbrev Half := BitVec 16

/-- One word of the host bus, or one command word (R45, R65). -/
abbrev Word := BitVec 32

/-- The word address of the port: bits 13:2 of the byte offset from P_BASE (R45). -/
abbrev PortAddr := BitVec 12

end Sys2Proof
end

