-- ==== Sys2Proof/Config.lean ====
section
/-! DEFINITION. The elaboration parameters of spec/00_scope.md R6 and the constants R7 fixes. The parameters are
fixed when the block is elaborated; no register and no command changes them (R6). -/

namespace Sys2Proof

/-- P_WIRE_ORDER: the byte order of every 2-byte field of a frame (R6, R47). -/
inductive WireOrder where
  /-- The more significant byte at the lower offset. -/
  | be
  /-- The less significant byte at the lower offset. -/
  | le
deriving DecidableEq, Repr

/-- P_QTAG: the four bytes of the query tag, P_QTAG[0] to P_QTAG[3] (R6). -/
structure QueryTag where
  b0 : Byte
  b1 : Byte
  b2 : Byte
  b3 : Byte
deriving DecidableEq, Repr

/-- The four bytes in the order of their indices. -/
def QueryTag.toList (q : QueryTag) : List Byte := [q.b0, q.b1, q.b2, q.b3]

/-- The configuration record of R6, one field a parameter. P_BASE is a platform address of no stated width. -/
structure Config where
  /-- P_POLY -/
  poly : Half
  /-- P_INIT -/
  init : Half
  /-- P_REFIN -/
  refin : Bool
  /-- P_REFOUT -/
  refout : Bool
  /-- P_XOROUT -/
  xorout : Half
  /-- P_WIRE_ORDER -/
  order : WireOrder
  /-- P_MARKER -/
  marker : Half
  /-- P_KIND -/
  kind : Byte
  /-- P_QTAG -/
  qtag : QueryTag
  /-- P_BASE -/
  base : Nat
deriving DecidableEq, Repr

/-- The default column of R6. DESIGN CHOICE (log 2): P_BASE, which R6 leaves OPEN, is 0 here; every other value is
the spec's own default, which no device is claimed to have. -/
def Config.default : Config where
  poly := 0x1021#16
  init := 0xFFFF#16
  refin := false
  refout := false
  xorout := 0x0000#16
  order := .be
  marker := 0xCAFE#16
  kind := 0x01#8
  qtag := { b0 := 0x4F#8, b1 := 0x42#8, b2 := 0x4F#8, b3 := 0x54#8 }
  base := 0

/-- The size of the register window in bytes: 16 KiB (R46). -/
abbrev windowSize : Nat := 0x4000

/-- BUF_SIZE: bytes of each frame buffer (R7). -/
abbrev bufSize : Nat := 261

/-- HDR: bytes of the frame header (R7). -/
abbrev hdr : Nat := 4

/-- TRL: bytes of the checksum trailer (R7). -/
abbrev trl : Nat := 2

/-- MAX_TX_PAYLOAD: the largest payload the serializer accepts (R7, R103, C1). -/
abbrev maxTxPayload : Nat := 254

/-- The one constraint R46 sets on the parameters: P_BASE is 16 KiB aligned. -/
def Config.wf (c : Config) : Bool := c.base % windowSize == 0

end Sys2Proof
end

