-- ==== Sys2Proof/Syntax.lean ====
section
/-! DEFINITION. The command set (spec/30_encoding.md R72, spec/opcode_table.json): one constructor a row, operands
as the assembler of R76 takes them, unsigned numbers. Whether an operand fits its field is WellFormed's business. -/

namespace Sys2Proof

/-- The nine commands of R72, in the table's order. -/
inductive Instr where
  /-- NOP (R120). -/
  | nop
  /-- CRC_INIT (R88). -/
  | crcInit
  /-- CRC_BYTE D (R89). -/
  | crcByte (d : Nat)
  /-- CRC_TX S, N (R90). -/
  | crcTx (s n : Nat)
  /-- CRC_RX S, N (R91). -/
  | crcRx (s n : Nat)
  /-- CLR_ERR (R121). -/
  | clrErr
  /-- BUILD_CMD N (R101). -/
  | buildCmd (n : Nat)
  /-- BUILD_QUERY (R104). -/
  | buildQuery
  /-- PARSE N (R105). -/
  | parse (n : Nat)
deriving DecidableEq, Repr

end Sys2Proof
end

