-- ==== Sys2Proof/WellFormed.lean ====
section
/-! DEFINITION. Which commands an assembler accepts (spec/30_encoding.md R71, R76): every operand fits its field.
A value that fits its field but is out of the buffers' range is well-formed; the command raises its result code. -/

namespace Sys2Proof

/-- The operand checks of R76: D at most 255, S and N at most 511. -/
def Instr.wellFormed : Instr → Bool
  | .nop => true
  | .crcInit => true
  | .crcByte d => decide (d ≤ 255)
  | .crcTx s n => decide (s ≤ 511) && decide (n ≤ 511)
  | .crcRx s n => decide (s ≤ 511) && decide (n ≤ 511)
  | .clrErr => true
  | .buildCmd n => decide (n ≤ 511)
  | .buildQuery => true
  | .parse n => decide (n ≤ 511)

/-- The same as a proposition. -/
abbrev Instr.WellFormed (i : Instr) : Prop := i.wellFormed = true

end Sys2Proof
end

