-- ==== Sys2Proof/Decode.lean ====
section
/-! DEFINITION. Command words (spec/30_encoding.md R65 to R74): the opcode map as a table of mask and match, the
decoder that finds the one matching row, and the encoder written from the four formats R67 to R70. -/

namespace Sys2Proof

/-- The opcode field OP, bits 31:24 (R65). -/
def opField (w : Word) : BitVec 8 := w.extractLsb' 24 8

/-- Operand D = w[7:0] (R71). -/
def dField (w : Word) : Nat := (w.extractLsb' 0 8).toNat

/-- Operand S = w[20:12] (R71). -/
def sField (w : Word) : Nat := (w.extractLsb' 12 9).toNat

/-- Operand N = w[8:0] (R71). -/
def nField (w : Word) : Nat := (w.extractLsb' 0 9).toNat

/-- One row of the opcode map R72. -/
structure OpRow where
  /-- The bits that are no operand bits. -/
  mask : Word
  /-- What those bits must hold. -/
  value : Word
  /-- The command, its operands taken from the word. -/
  command : Word → Instr

/-- The opcode map R72, row for row. -/
def opTable : List OpRow :=
  [ ⟨0xFFFFFFFF#32, 0x00000000#32, fun _ => .nop⟩,
    ⟨0xFFFFFFFF#32, 0x01000000#32, fun _ => .crcInit⟩,
    ⟨0xFFFFFF00#32, 0x02000000#32, fun w => .crcByte (dField w)⟩,
    ⟨0xFFE00E00#32, 0x03000000#32, fun w => .crcTx (sField w) (nField w)⟩,
    ⟨0xFFE00E00#32, 0x04000000#32, fun w => .crcRx (sField w) (nField w)⟩,
    ⟨0xFFFFFFFF#32, 0x0F000000#32, fun _ => .clrErr⟩,
    ⟨0xFFFFFE00#32, 0x10000000#32, fun w => .buildCmd (nField w)⟩,
    ⟨0xFFFFFFFF#32, 0x11000000#32, fun _ => .buildQuery⟩,
    ⟨0xFFFFFE00#32, 0x20000000#32, fun w => .parse (nField w)⟩ ]

/-- A row matches a word when (w & mask) == match (R66). -/
def OpRow.hits (r : OpRow) (w : Word) : Bool := (w &&& r.mask) == r.value

/-- Why a word is no command (R73). Both reasons have the one effect of R122. -/
inductive IllegalWord where
  /-- The opcode is in no row of R72. -/
  | unknownOpcode
  /-- The opcode is in R72, but a reserved bit is 1. -/
  | reservedBits
deriving DecidableEq, Repr

/-- Whether some row of R72 has the word's opcode: every row's opcode is bits 31:24 of its match. -/
def knownOpcode (w : Word) : Bool := opTable.any fun r => opField r.value == opField w

/-- Decoding (R66): the row that matches, or the reason there is none. Total on every word. -/
def decode (w : Word) : Except IllegalWord Instr :=
  match opTable.find? (fun r => r.hits w) with
  | some r => .ok (r.command w)
  | none => .error (if knownOpcode w then .reservedBits else .unknownOpcode)

/-- Format N: OP and 24 reserved bits (R67). -/
def formatN (op : BitVec 8) : Word := op ++ 0#24

/-- Format B: OP, 16 reserved bits, D (R68). -/
def formatB (op : BitVec 8) (d : Nat) : Word := op ++ 0#16 ++ BitVec.ofNat 8 d

/-- Format R: OP, 3 reserved bits, S, 3 reserved bits, N (R69). -/
def formatR (op : BitVec 8) (s n : Nat) : Word :=
  op ++ 0#3 ++ BitVec.ofNat 9 s ++ 0#3 ++ BitVec.ofNat 9 n

/-- Format L: OP, 15 reserved bits, N (R70). -/
def formatL (op : BitVec 8) (n : Nat) : Word := op ++ 0#15 ++ BitVec.ofNat 9 n

/-- The word of a well-formed command: its opcode of R72 in its format of R67 to R70. -/
def encode : Instr → Word
  | .nop => formatN 0x00#8
  | .crcInit => formatN 0x01#8
  | .crcByte d => formatB 0x02#8 d
  | .crcTx s n => formatR 0x03#8 s n
  | .crcRx s n => formatR 0x04#8 s n
  | .clrErr => formatN 0x0F#8
  | .buildCmd n => formatL 0x10#8 n
  | .buildQuery => formatN 0x11#8
  | .parse n => formatL 0x20#8 n

/-- The command word whose table bits are the low `nbits` bits of `w`, bit 0 of the word least significant; every
bit above them is 0. A command is one word, so there is no second word and no byte order (R65). -/
def tableWord (nbits w : Nat) : Word := BitVec.ofNat 32 (w % 2 ^ nbits)

/-- What the decoder reads from an opcode-table word; none for a word it rejects. -/
def decodeTableWord (nbits w : Nat) : Option Instr :=
  match decode (tableWord nbits w) with
  | .ok i => some i
  | .error _ => none

end Sys2Proof
end

