-- ==== Sys2Proof/Machine/State.lean ====
section
/-! DEFINITION. The state of FrameCodec-HW (spec/10_state.md R22), the bus events the host makes (spec/20_memory.md
R45, R49, R50; spec/70_reset_and_hazards.md R150), the reasons a step can stop, the state after reset (R43), and one
updater per piece of state. Plain data throughout. -/

namespace Sys2Proof.Machine

/-- STATUS.RESULT (R25, R130). Codes 7 to 15 are never produced (U3), so they have no name here (log 12). -/
inductive Result where
  /-- 0: the command succeeded. -/
  | ok
  /-- 1: the word matched no row of the opcode map. -/
  | illegal
  /-- 2: a buffer range or datagram length past the buffer's end. -/
  | badRange
  /-- 3: a payload length of 255 or more. -/
  | tooLarge
  /-- 4: a datagram shorter than its frame. -/
  | truncated
  /-- 5: the first two bytes are not the start marker. -/
  | badMarker
  /-- 6: the checksums differ and CTRL.CRC_ENFORCE is 1. -/
  | crcMismatch
deriving DecidableEq, Repr

/-- STATUS, field by field (R24). Its reserved bits read 0 and are not held. -/
structure Status where
  /-- RESULT, bits 3:0. -/
  result : Result
  /-- ERR, bit 4, sticky (R26). -/
  err : Bool
  /-- CRC_MM, bit 5 (R27). -/
  crcMm : Bool
  /-- IS_QUERY, bit 6 (R28). -/
  isQuery : Bool
  /-- RX_OK, bit 7 (R29). -/
  rxOk : Bool
deriving DecidableEq, Repr

/-- The two frame buffers (R38, R39). -/
inductive Buffer where
  | tx
  | rx
deriving DecidableEq, Repr

/-- The contents of one frame buffer: (index, byte) pairs, indices strictly rising and below 261. An index is listed
exactly when its written mark is set; an unlisted byte has no value (R40, log 5). -/
abbrev Memory := List Host.Cell

/-- What a bus transaction asks for: `we` and, for a write, `wdata` (R45). -/
inductive BusOp where
  | read
  | write (data : Word)
deriving DecidableEq, Repr

/-- A host access, as MemRead(addr, bytes) and MemWrite(addr, bytes, v) of R9 name it, at a platform address. -/
structure Access where
  addr  : Nat
  bytes : Nat
  op    : BusOp
deriving DecidableEq, Repr

/-- What can happen at the block's port (log 3, log 9). -/
inductive BusEvent where
  /-- A transaction that completes (R45, R53). -/
  | access (a : Access)
  /-- A rising edge of clk with rst = 1 (R150), and the transaction it abandons, if one was in flight (R151). -/
  | reset (inFlight : Option Access)
deriving DecidableEq, Repr

/-- The machine's state: the configuration (R6), the block's state (R22), and the model's own view of the host. -/
structure State where
  /-- The elaboration parameters (R6). No step changes them (log 1). -/
  cfg : Config
  /-- STATUS (R24). -/
  status : Status
  /-- CTRL.CRC_ENFORCE (R30). -/
  crcEnforce : Bool
  /-- CRC.VALUE, the raw register (R31). -/
  crc : Half
  /-- TX_LEN, bits 8:0 (R33). -/
  txLen : BitVec 9
  /-- RX_PLEN, bits 7:0 (R34). -/
  rxPlen : Byte
  /-- RX_KIND, bits 7:0 (R35). -/
  rxKind : Byte
  /-- RX_CALC, bits 15:0 (R36). -/
  rxCalc : Half
  /-- RX_RECV, bits 15:0 (R37). -/
  rxRecv : Half
  /-- TX[0..260] with written marks (R38, R40). -/
  tx : Memory
  /-- RX[0..260] with written marks (R39, R40). -/
  rx : Memory
  /-- MODEL's own: the bus events still to happen, oldest first (log 3). -/
  pending : List BusEvent
  /-- MODEL's own: rdata of the last completed transaction; none where it was no read (R45, log 4). -/
  rdata : Option Word
deriving DecidableEq, Repr

/-- Why a step stops with no next state, where the block itself has one or the address is not the block's. -/
inductive Fault where
  /-- Raised by a bus read of a buffer byte, CRC_TX, CRC_RX, BUILD_CMD and PARSE when they read a byte with no written
  mark (R40, U1). Safe: a real RAM returns some byte, the model stops. -/
  | unwrittenByte (b : Buffer) (index : Nat)
  /-- Raised by an access at a platform address outside the block's window (R46, R54, log 8). Safe: it is no
  transaction of this block. -/
  | outsideWindow (addr : Nat)
deriving DecidableEq, Repr

/-- Inputs the model does not accept. -/
inductive Refusal where
  /-- Raised only by an arm of exec whose command has no meaning yet. Safe. No arm raises it. -/
  | notModelled (mnemonic : String)
  /-- Raised by an access that is not 4 bytes wide: the port cannot express it, and R50 has a model refuse it (U7).
  Safe. -/
  | unsupportedWidth (bytes : Nat)
  /-- Raised by an access that is not 4-byte aligned: the port cannot express it, and R50 has a model refuse it (U7).
  Safe. -/
  | misaligned (addr : Nat)
deriving DecidableEq, Repr

/-- STATUS after reset (R43). -/
def Status.reset : Status :=
  { result := .ok, err := false, crcMm := false, isQuery := false, rxOk := false }

/-- The state right after reset of a block elaborated with `c` (R43, R150), with the events `rest` still to come. -/
def State.resetOf (c : Config) (rest : List BusEvent) : State where
  cfg := c
  status := Status.reset
  crcEnforce := true
  crc := c.init
  txLen := 0
  rxPlen := 0
  rxKind := 0
  rxCalc := 0
  rxRecv := 0
  tx := []
  rx := []
  pending := rest
  rdata := none

/-- The machine right after reset (R43), elaborated with the defaults of R6 and P_BASE = 0 (log 2), the host having
issued no transaction yet (log 3). -/
def State.reset : State := State.resetOf Config.default []

/-- Replace STATUS. -/
def State.setStatus (s : State) (v : Status) : State := { s with status := v }

/-- Replace CTRL.CRC_ENFORCE. -/
def State.setCrcEnforce (s : State) (v : Bool) : State := { s with crcEnforce := v }

/-- Replace CRC.VALUE. -/
def State.setCrc (s : State) (v : Half) : State := { s with crc := v }

/-- Replace TX_LEN. -/
def State.setTxLen (s : State) (v : BitVec 9) : State := { s with txLen := v }

/-- Replace RX_KIND and RX_PLEN. -/
def State.setRxHeader (s : State) (kind plen : Byte) : State := { s with rxKind := kind, rxPlen := plen }

/-- Replace RX_CALC and RX_RECV. -/
def State.setRxSums (s : State) (want got : Half) : State := { s with rxCalc := want, rxRecv := got }

/-- Replace the transmit buffer. -/
def State.setTx (s : State) (v : Memory) : State := { s with tx := v }

/-- Replace the receive buffer. -/
def State.setRx (s : State) (v : Memory) : State := { s with rx := v }

/-- Replace the events still to come. -/
def State.setPending (s : State) (v : List BusEvent) : State := { s with pending := v }

/-- Replace the read data of the last transaction. -/
def State.setRdata (s : State) (v : Option Word) : State := { s with rdata := v }

/-- What a step answers on this machine. -/
abbrev Answer := Host.Outcome State Fault Refusal

end Sys2Proof.Machine
end

