-- ==== Sys2Proof/Machine/Ops.lean ====
section
/-! DEFINITION. The shared operations: W16 and R16 (spec/00_scope.md R10), the frame buffers with their written
marks (spec/10_state.md R38 to R40), and how a command ends, with a result code or OK (spec/60_exceptions.md R131).
The block has no other exception: no trap is entered and none is returned from (R135, R136). -/

namespace Sys2Proof.Machine

/-- W16(v): the 2-byte wire form of a 16-bit value (R10). -/
def w16 (o : WireOrder) (v : Half) : Byte × Byte :=
  match o with
  | .be => (v.extractLsb' 8 8, v.extractLsb' 0 8)
  | .le => (v.extractLsb' 0 8, v.extractLsb' 8 8)

/-- R16(b0, b1), the inverse of W16 (R10). -/
def r16 (o : WireOrder) (b0 b1 : Byte) : Half :=
  match o with
  | .be => b0 ++ b1
  | .le => b1 ++ b0

/-- Byte `i` of a buffer; none when its written mark is clear (R40). -/
def Memory.read (m : Memory) (i : Nat) : Option Byte :=
  match m with
  | [] => none
  | (j, b) :: rest => if i = j then some b else Memory.read rest i

/-- Write byte `i` and set its written mark (R40), keeping the indices strictly rising. -/
def Memory.write (m : Memory) (i : Nat) (b : Byte) : Memory :=
  match m with
  | [] => [(i, b)]
  | (j, c) :: rest =>
    if i < j then (i, b) :: (j, c) :: rest
    else if i = j then (i, b) :: rest
    else (j, c) :: Memory.write rest i b

/-- Write consecutive bytes from index `i` on, in increasing index. -/
def Memory.writeAll (m : Memory) (i : Nat) (bs : List Byte) : Memory :=
  match bs with
  | [] => m
  | b :: rest => Memory.writeAll (Memory.write m i b) (i + 1) rest

/-- The canonical form: indices strictly rising, each one of the buffer's 261 (R38, R39). -/
def Memory.wf (m : Memory) : Bool :=
  decide ((m.map Prod.fst).Pairwise (· < ·)) && m.all fun c => decide (c.1 < bufSize)

/-- Read byte `i` of buffer `b`: a fault when it was never written (R40, U1). -/
def readByte (b : Buffer) (m : Memory) (i : Nat) : Except Fault Byte :=
  match Memory.read m i with
  | some x => .ok x
  | none => .error (.unwrittenByte b i)

/-- Read `n` bytes from index `i` on, in increasing index; the first unwritten one faults (R40, log 7). -/
def readRange (b : Buffer) (m : Memory) (i n : Nat) : Except Fault (List Byte) :=
  match n with
  | 0 => .ok []
  | k + 1 =>
    match readByte b m i with
    | .error f => .error f
    | .ok x =>
      match readRange b m (i + 1) k with
      | .error f => .error f
      | .ok xs => .ok (x :: xs)

/-- The contents of a buffer. -/
def State.buffer (s : State) (b : Buffer) : Memory :=
  match b with
  | .tx => s.tx
  | .rx => s.rx

/-- Replace the contents of a buffer. -/
def State.setBuffer (s : State) (b : Buffer) (m : Memory) : State :=
  match b with
  | .tx => s.setTx m
  | .rx => s.setRx m

/-- STATUS as `raise X` leaves it: RESULT <- X, ERR <- 1 (R131). -/
def Status.failed (v : Status) (r : Result) : Status := { v with result := r, err := true }

/-- STATUS as `complete(OK)` leaves it: RESULT <- OK, ERR kept (R131). -/
def Status.completed (v : Status) : Status := { v with result := .ok }

/-- `raise X`: end the command with a result code that is not OK. What was written before stays (R9, R131). -/
def raise (r : Result) (s : State) : Answer := .next (s.setStatus (s.status.failed r))

/-- `complete(OK)`: end the command (R9, R131). -/
def complete (s : State) : Answer := .next (s.setStatus s.status.completed)

end Sys2Proof.Machine
end

