-- ==== Sys2Proof/Machine/Operands.lean ====
section
/-! DEFINITION. The operand forms (spec/30_encoding.md R67 to R71) as the commands use them, and the operand checks
made before a command changes anything (spec/60_exceptions.md R132, R134). A command's operands come from its word
alone: there is no register operand and no addressing mode (R20). -/

namespace Sys2Proof.Machine

/-- Operand D as the byte that enters the generator (R71, R89). A well-formed D fits (log 13). -/
def byteOperand (d : Nat) : Byte := BitVec.ofNat 8 d

/-- N[7:0], the payload_length byte of a frame (R101). -/
def lengthByte (n : Nat) : Byte := BitVec.ofNat 8 n

/-- The range check of CRC_TX and CRC_RX: S + N, exact, at most 261 (R90, R91, R93). -/
def rangeFits (s n : Nat) : Bool := decide (s + n ≤ bufSize)

/-- The payload check of BUILD_CMD: N less than 255 (R101, R103, C1). -/
def payloadFits (n : Nat) : Bool := decide (n ≤ maxTxPayload)

/-- The datagram check of PARSE: N at most 261 (R105). -/
def datagramFits (n : Nat) : Bool := decide (n ≤ bufSize)

/-- The length of a frame with an `n`-byte payload: 4 + n + 2 (R100). -/
def frameLength (n : Nat) : Nat := hdr + n + trl

end Sys2Proof.Machine
end

