-- ==== Sys2Proof/Machine/Flags.lean ====
section
/-! DEFINITION. STATUS: its layout as the host reads it (spec/10_state.md R24), the numbers of the result codes
(R25, R130), and how PARSE computes CRC_MM, IS_QUERY and RX_OK (R27 to R29, spec/41_frame.md R105, R107, R108). -/

namespace Sys2Proof.Machine

/-- The code of a result (R25, R130). -/
def Result.code : Result → BitVec 4
  | .ok => 0
  | .illegal => 1
  | .badRange => 2
  | .tooLarge => 3
  | .truncated => 4
  | .badMarker => 5
  | .crcMismatch => 6

/-- STATUS as a bus read returns it: RESULT 3:0, ERR 4, CRC_MM 5, IS_QUERY 6, RX_OK 7, the rest 0 (R24). -/
def Status.word (v : Status) : Word :=
  0#24 ++ BitVec.ofBool v.rxOk ++ BitVec.ofBool v.isQuery ++ BitVec.ofBool v.crcMm ++ BitVec.ofBool v.err
    ++ v.result.code

/-- PARSE starts: CRC_MM, IS_QUERY and RX_OK <- 0 (R105). -/
def Status.parseStarted (v : Status) : Status := { v with crcMm := false, isQuery := false, rxOk := false }

/-- CRC_MM at the checksum step: the two checksums differ, whatever CTRL says (R27, R108). -/
def mismatch (want got : Half) : Bool := want != got

/-- IS_QUERY at the checksum step: L == 4 and the payload is P_QTAG (R28, R107). -/
def queryFlag (tag : QueryTag) (plen : Byte) (payload : List Byte) : Bool :=
  plen == 4#8 && payload == tag.toList

/-- STATUS at the checksum step, before PARSE ends: IS_QUERY and CRC_MM (R105). -/
def Status.checksumStep (v : Status) (query mm : Bool) : Status := { v with isQuery := query, crcMm := mm }

/-- RX_OK <- 1 (R29, R105). -/
def Status.accepted (v : Status) : Status := { v with rxOk := true }

/-- ERR <- 0 (R121). -/
def Status.errCleared (v : Status) : Status := { v with err := false }

end Sys2Proof.Machine
end

