-- ==== Sys2Proof/Machine/Control.lean ====
section
/-! DEFINITION. The control commands NOP and CLR_ERR and the handling of a word that is no command
(spec/42_control.md R120 to R122). -/

namespace Sys2Proof.Machine

/-- NOP (R120). -/
def execNop (s : State) : Answer := complete s

/-- CLR_ERR (R121). -/
def execClrErr (s : State) : Answer := complete (s.setStatus s.status.errCleared)

/-- A command word that matches no row of the opcode map (R122). -/
def illegalCommand (s : State) : Answer := raise .illegal s

end Sys2Proof.Machine
end

