-- ==== Sys2Proof/Machine/Crc.lean ====
section
/-! DEFINITION. The CRC-16 generator (spec/40_crc.md R85 to R87) and its four commands CRC_INIT, CRC_BYTE, CRC_TX,
CRC_RX (R88 to R91). -/

namespace Sys2Proof.Machine

/-- One shift of the register: out of bit 15, the polynomial in where that bit was 1 (R85). -/
def crcShift (poly r : Half) : Half := if r.getLsbD 15 then (r <<< 1) ^^^ poly else r <<< 1

/-- `k` shifts. -/
def crcShifts (poly : Half) (k : Nat) (r : Half) : Half :=
  match k with
  | 0 => r
  | j + 1 => crcShifts poly j (crcShift poly r)

/-- The byte as it enters the register: bit-reflected when P_REFIN is 1 (R8, R85). -/
def crcInput (c : Config) (b : Byte) : Byte := if c.refin then b.reverse else b

/-- Upd(r, b): the byte enters at bits 15:8, then eight shifts (R85). -/
def upd (c : Config) (r : Half) (b : Byte) : Half :=
  crcShifts c.poly 8 (r ^^^ ((crcInput c b).zeroExtend 16 <<< 8))

/-- Fin(r): output reflection, then the final XOR (R86). -/
def fin (c : Config) (r : Half) : Half := (if c.refout then r.reverse else r) ^^^ c.xorout

/-- Upd applied to each byte in order (R87, R90). -/
def feed (c : Config) (r : Half) (bs : List Byte) : Half := bs.foldl (upd c) r

/-- Raw(s): the register after the bytes, from P_INIT (R87). -/
def raw (c : Config) (bs : List Byte) : Half := feed c c.init bs

/-- Crc(s) = Fin(Raw(s)) (R87). -/
def checksum (c : Config) (bs : List Byte) : Half := fin c (raw c bs)

/-- CRC_TX and CRC_RX over either buffer: the range check, then the bytes in increasing index from CRC.VALUE on
(R90, R91). -/
def crcRange (b : Buffer) (first count : Nat) (s : State) : Answer :=
  if rangeFits first count then
    match readRange b (s.buffer b) first count with
    | .error f => .fault f
    | .ok bs => complete (s.setCrc (feed s.cfg s.crc bs))
  else raise .badRange s

/-- CRC_INIT (R88). -/
def execCrcInit (s : State) : Answer := complete (s.setCrc s.cfg.init)

/-- CRC_BYTE D (R89). -/
def execCrcByte (d : Nat) (s : State) : Answer := complete (s.setCrc (upd s.cfg s.crc (byteOperand d)))

/-- CRC_TX S, N (R90). -/
def execCrcTx (first count : Nat) (s : State) : Answer := crcRange .tx first count s

/-- CRC_RX S, N (R91). -/
def execCrcRx (first count : Nat) (s : State) : Answer := crcRange .rx first count s

end Sys2Proof.Machine
end

