-- ==== Sys2Proof/Machine/Frame.lean ====
section
/-! DEFINITION. The frame serializer BUILD_CMD and BUILD_QUERY and the frame checker PARSE (spec/41_frame.md R100 to
R109). -/

namespace Sys2Proof.Machine

/-- The two start_marker bytes as they stand in a frame: W16(P_MARKER) (R100). -/
def markerBytes (c : Config) : Byte × Byte := w16 c.order c.marker

/-- The 4-byte header of a frame with payload length `n` (R100, R101, R102). -/
def headerBytes (c : Config) (n : Nat) : List Byte :=
  [(markerBytes c).1, (markerBytes c).2, c.kind, lengthByte n]

/-- TX with the header written (R101). -/
def withHeader (c : Config) (n : Nat) (m : Memory) : Memory := m.writeAll 0 (headerBytes c n)

/-- TX with the trailer W16(v) written after an `n`-byte payload (R101). -/
def withTrailer (c : Config) (n : Nat) (v : Half) (m : Memory) : Memory :=
  m.writeAll (hdr + n) [(w16 c.order v).1, (w16 c.order v).2]

/-- The steps of R101 after its TOO_LARGE check: header, CRC over TX[0 .. 3+N], trailer, CRC.VALUE, TX_LEN. -/
def serialize (n : Nat) (s : State) : Answer :=
  let m := withHeader s.cfg n s.tx
  match readRange .tx m 0 (hdr + n) with
  | .error f => .fault f
  | .ok bs =>
    let r := raw s.cfg bs
    complete (((s.setTx (withTrailer s.cfg n (fin s.cfg r) m)).setCrc r).setTxLen (BitVec.ofNat 9 (frameLength n)))

/-- BUILD_CMD N (R101, R103). -/
def execBuildCmd (n : Nat) (s : State) : Answer :=
  if payloadFits n then serialize n s else raise .tooLarge s

/-- BUILD_QUERY (R104): P_QTAG into TX[4..7], then the steps of R101 with N = 4. -/
def execBuildQuery (s : State) : Answer := serialize 4 (s.setTx (s.tx.writeAll hdr s.cfg.qtag.toList))

/-- PARSE starts: it clears its result registers and flags (R105). -/
def clearResults (s : State) : State :=
  ((s.setRxHeader 0 0).setRxSums 0 0).setStatus s.status.parseStarted

/-- RX[0] != m0 or RX[1] != m1, RX[1] read only when RX[0] is m0 (R105, log 6): whether the marker is wrong. -/
def markerWrong (c : Config) (m : Memory) : Except Fault Bool :=
  match readByte .rx m 0 with
  | .error f => .error f
  | .ok b0 =>
    if b0 = (markerBytes c).1 then
      match readByte .rx m 1 with
      | .error f => .error f
      | .ok b1 => .ok (b1 != (markerBytes c).2)
    else .ok true

/-- The end of PARSE on a mismatch or a match: CRC_MISMATCH where CTRL.CRC_ENFORCE is 1, else RX_OK (R105, R108). -/
def verdict (mm : Bool) (s : State) : Answer :=
  if mm && s.crcEnforce then raise .crcMismatch s else complete (s.setStatus s.status.accepted)

/-- The checksum step on the frame's first 4+L bytes and its two trailer bytes (R105, R107). -/
def checksumStep (bs : List Byte) (t0 t1 : Byte) (s : State) : Answer :=
  let r := raw s.cfg bs
  let want := fin s.cfg r
  let got := r16 s.cfg.order t0 t1
  let mm := mismatch want got
  verdict mm (((s.setCrc r).setRxSums want got).setStatus
    (s.status.checksumStep (queryFlag s.cfg.qtag s.rxPlen (bs.drop hdr)) mm))

/-- PARSE from the length check on, RX_KIND and RX_PLEN being set: N against 6 + L, then the bytes read (R105). -/
def parseBody (n : Nat) (s : State) : Answer :=
  let l := s.rxPlen.toNat
  if n < frameLength l then raise .truncated s
  else
    match readRange .rx s.rx 0 (hdr + l) with
    | .error f => .fault f
    | .ok bs =>
      match readByte .rx s.rx (hdr + l) with
      | .error f => .fault f
      | .ok t0 =>
        match readByte .rx s.rx (hdr + l + 1) with
        | .error f => .fault f
        | .ok t1 => checksumStep bs t0 t1 s

/-- PARSE once the marker has matched: RX_KIND <- RX[2], RX_PLEN <- RX[3] (R105, R106). -/
def parseHeader (n : Nat) (s : State) : Answer :=
  match readByte .rx s.rx 2 with
  | .error f => .fault f
  | .ok kind =>
    match readByte .rx s.rx 3 with
    | .error f => .fault f
    | .ok plen => parseBody n (s.setRxHeader kind plen)

/-- PARSE after its operand check and the clearing of its results: N against 4, then the marker (R105, R106). -/
def parseFrame (n : Nat) (s : State) : Answer :=
  if n < hdr then raise .truncated s
  else
    match markerWrong s.cfg s.rx with
    | .error f => .fault f
    | .ok true => raise .badMarker s
    | .ok false => parseHeader n s

/-- PARSE N (R105). -/
def execParse (n : Nat) (s : State) : Answer :=
  if datagramFits n then parseFrame n (clearResults s) else raise .badRange s

end Sys2Proof.Machine
end

