-- ==== Sys2Proof/Machine/Dispatch.lean ====
section
/-! DEFINITION. One command's meaning, by constructor of Instr (spec/30_encoding.md R72). -/

namespace Sys2Proof.Machine

def exec (i : Instr) (s : State) : Host.Outcome State Fault Refusal :=
  match i with
  | .nop => Sys2Proof.Machine.execNop s
  | .crcInit => Sys2Proof.Machine.execCrcInit s
  | .crcByte d => Sys2Proof.Machine.execCrcByte d s
  | .crcTx first count => Sys2Proof.Machine.execCrcTx first count s
  | .crcRx first count => Sys2Proof.Machine.execCrcRx first count s
  | .clrErr => Sys2Proof.Machine.execClrErr s
  | .buildCmd n => Sys2Proof.Machine.execBuildCmd n s
  | .buildQuery => Sys2Proof.Machine.execBuildQuery s
  | .parse n => Sys2Proof.Machine.execParse n s

end Sys2Proof.Machine
end

