-- ==== Sys2Proof/Machine/Bus.lean ====
section
/-! DEFINITION. The host bus (spec/20_memory.md R45 to R53): the address map, bus reads and writes, the CMD register
that runs commands (spec/10_state.md R23), and reset at the port (spec/70_reset_and_hazards.md R150, R151). -/

namespace Sys2Proof.Machine

/-- What a word address of the window names (R46). -/
inductive Target where
  | cmd
  | status
  | ctrl
  | crc
  | crcOut
  | txLen
  | rxPlen
  | rxKind
  | rxCalc
  | rxRecv
  | tx (i : Nat)
  | rx (i : Nat)
  | reserved
deriving DecidableEq, Repr

/-- The address map R46, by byte offset from P_BASE. -/
def targetAt (off : Nat) : Target :=
  if off = 0x0000 then .cmd
  else if off = 0x0004 then .status
  else if off = 0x0008 then .ctrl
  else if off = 0x000C then .crc
  else if off = 0x0010 then .crcOut
  else if off = 0x0014 then .txLen
  else if off = 0x0018 then .rxPlen
  else if off = 0x001C then .rxKind
  else if off = 0x0020 then .rxCalc
  else if off = 0x0024 then .rxRecv
  else if 0x1000 ≤ off ∧ off ≤ 0x1410 then .tx ((off - 0x1000) / 4)
  else if 0x2000 ≤ off ∧ off ≤ 0x2410 then .rx ((off - 0x2000) / 4)
  else .reserved

/-- The byte offset a port address stands for: bits 13:2 (R45). -/
def offsetOf (a : PortAddr) : Nat := 4 * a.toNat

/-- CTRL as a bus read returns it (R30). -/
def ctrlWord (enforce : Bool) : Word := 0#31 ++ BitVec.ofBool enforce

/-- What a bus read returns (R49). -/
def readTarget (s : State) : Target → Except Fault Word
  | .cmd => .ok 0
  | .status => .ok s.status.word
  | .ctrl => .ok (ctrlWord s.crcEnforce)
  | .crc => .ok (s.crc.zeroExtend 32)
  | .crcOut => .ok ((fin s.cfg s.crc).zeroExtend 32)
  | .txLen => .ok (s.txLen.zeroExtend 32)
  | .rxPlen => .ok (s.rxPlen.zeroExtend 32)
  | .rxKind => .ok (s.rxKind.zeroExtend 32)
  | .rxCalc => .ok (s.rxCalc.zeroExtend 32)
  | .rxRecv => .ok (s.rxRecv.zeroExtend 32)
  | .tx i => (readByte .tx s.tx i).map (·.zeroExtend 32)
  | .rx i => (readByte .rx s.rx i).map (·.zeroExtend 32)
  | .reserved => .ok 0

/-- A write of `w` to CMD: decode, then execute the command (R23, R66), or handle the illegal word (R122). -/
def runCommand (w : Word) (s : State) : Answer :=
  match decode w with
  | .ok i => exec i s
  | .error _ => illegalCommand s

/-- What a bus write does (R50). Read-only registers and reserved offsets ignore it (R51). -/
def writeTarget (w : Word) (s : State) : Target → Answer
  | .cmd => runCommand w s
  | .ctrl => .next (s.setCrcEnforce (w.getLsbD 0))
  | .crc => .next (s.setCrc (w.extractLsb' 0 16))
  | .tx i => .next (s.setTx (s.tx.write i (w.extractLsb' 0 8)))
  | .rx i => .next (s.setRx (s.rx.write i (w.extractLsb' 0 8)))
  | .status => .next s
  | .crcOut => .next s
  | .txLen => .next s
  | .rxPlen => .next s
  | .rxKind => .next s
  | .rxCalc => .next s
  | .rxRecv => .next s
  | .reserved => .next s

/-- Why an access never reaches the port as a transaction. -/
inductive BadAccess where
  /-- The address is not in the block's window (R46, log 8). -/
  | outside
  /-- The access is not one full word (R50, U7). -/
  | width
  /-- The address is not 4-byte aligned (R50, U7). -/
  | unaligned
deriving DecidableEq, Repr

/-- The port address of a host access, or why it has none (R45, R46, R50; order of the checks: log 8). -/
def portAddr (c : Config) (a : Access) : Except BadAccess PortAddr :=
  if a.addr < c.base ∨ c.base + windowSize ≤ a.addr then .error .outside
  else if a.bytes ≠ 4 then .error .width
  else if (a.addr - c.base) % 4 ≠ 0 then .error .unaligned
  else .ok (BitVec.ofNat 12 ((a.addr - c.base) / 4))

/-- One completed transaction at a port address (R49, R50). A read leaves its word on rdata, a write leaves none
(R45, log 4). -/
def transaction (a : PortAddr) (op : BusOp) (s : State) : Answer :=
  match op with
  | .read =>
    match readTarget s (targetAt (offsetOf a)) with
    | .error f => .fault f
    | .ok v => .next (s.setRdata (some v))
  | .write w => writeTarget w (s.setRdata none) (targetAt (offsetOf a))

/-- One host access: a transaction of the port, or a stop by name where the port cannot express it (R50, U7). -/
def access (a : Access) (s : State) : Answer :=
  match portAddr s.cfg a with
  | .ok p => transaction p a.op s
  | .error .outside => .fault (.outsideWindow a.addr)
  | .error .width => .refused (.unsupportedWidth a.bytes)
  | .error .unaligned => .refused (.misaligned a.addr)

/-- A rising edge with rst = 1 (R150). A transaction in flight is abandoned, so nothing of it enters (R151, R134). -/
def resetEdge (s : State) : Answer := .next (State.resetOf s.cfg s.pending)

/-- What one bus event does, the event itself already taken off the list. -/
def busEvent (e : BusEvent) (s : State) : Answer :=
  match e with
  | .access a => access a s
  | .reset _ => resetEdge s

/-- The next thing to happen at the port: the oldest pending event. With none the block holds its state (R144). -/
def nextEvent (s : State) : Answer :=
  match s.pending with
  | [] => .next s
  | e :: rest => busEvent e (s.setPending rest)

/-- The platform address of a register or buffer byte: P_BASE + offset (R46, R77). -/
def busAddr (c : Config) (off : Nat) : Nat := c.base + off

/-- MemRead(P_BASE + off, 4) (R9, R77). -/
def rd (c : Config) (off : Nat) : Access := { addr := busAddr c off, bytes := 4, op := .read }

/-- MemWrite(P_BASE + off, 4, v) (R9, R77). -/
def wr (c : Config) (off : Nat) (v : Word) : Access := { addr := busAddr c off, bytes := 4, op := .write v }

end Sys2Proof.Machine
end

