-- ==== Sys2Proof/Machine/Step.lean ====
section
/-! DEFINITION. One step: the next bus event happens (spec/00_scope.md R13; spec/20_memory.md R53, R57). -/

namespace Sys2Proof.Machine

/-- One step of the machine (log 3). -/
def step (s : State) : Host.Outcome State Fault Refusal := nextEvent s

/-- The host's next transaction is a write of that word to CMD: the block fetches nothing, a command comes to it
only so (R21, R23, R60; log 3). -/
def State.withFetchWord (s : State) (nbits w : Nat) : State :=
  s.setPending (.access (wr s.cfg 0x0000 (tableWord nbits w)) :: s.pending)

end Sys2Proof.Machine
end

