-- ==== Sys2Proof/Machine/HostProgram.lean ====
section
/-! DEFINITION. Host programs (spec/30_encoding.md R76 to R78): what the assembler accepts, the bus statements wr and
rd, the pseudo-instructions and their expansions, and the same read from text. The block never sees any of this; it
says which bus transactions a written program stands for (log 14). -/

namespace Sys2Proof.Machine

/-- The assembler: the word of a command, or none where an operand does not fit its field (R76). -/
def assemble (i : Instr) : Option Word := if i.wellFormed then some (encode i) else none

/-- The offset of register or buffer byte `t`; a reserved target names none (R46, R77). TX+i and RX+i stand for
0x1000 + 4*i and 0x2000 + 4*i. -/
def Target.offset : Target → Option Nat
  | .cmd => some 0x0000
  | .status => some 0x0004
  | .ctrl => some 0x0008
  | .crc => some 0x000C
  | .crcOut => some 0x0010
  | .txLen => some 0x0014
  | .rxPlen => some 0x0018
  | .rxKind => some 0x001C
  | .rxCalc => some 0x0020
  | .rxRecv => some 0x0024
  | .tx i => some (0x1000 + 4 * i)
  | .rx i => some (0x2000 + 4 * i)
  | .reserved => none

/-- One line of a host program (R76 to R78). -/
inductive HostStmt where
  /-- `wr OFF, V` -/
  | wr (off : Nat) (v : Word)
  /-- `rd OFF` -/
  | rd (off : Nat)
  /-- a command mnemonic on its own line: `wr 0x000, <its word>` -/
  | cmd (i : Instr)
  /-- `crc.of.tx S, N` -/
  | crcOfTx (s n : Nat)
  /-- `crc.of.rx S, N` -/
  | crcOfRx (s n : Nat)
  /-- `crc.seed V` -/
  | crcSeed (v : Word)
  /-- `tx.load S, b0, ..., bk` -/
  | txLoad (s : Nat) (bs : List Byte)
  /-- `rx.load S, b0, ..., bk` -/
  | rxLoad (s : Nat) (bs : List Byte)
  /-- `check` -/
  | check
deriving DecidableEq, Repr

/-- The write of a command word to CMD (R77). -/
def cmdWrite (c : Config) (i : Instr) : Option Access := (assemble i).map fun w => wr c 0x0000 w

/-- Writes of consecutive bytes, one word a byte, from offset `off` on (R46, R78). -/
def byteWrites (c : Config) (off : Nat) : List Byte → List Access
  | [] => []
  | b :: rest => wr c off (b.zeroExtend 32) :: byteWrites c (off + 4) rest

/-- The transactions a line stands for; none where the assembler rejects it (R76 to R78). -/
def HostStmt.expand (c : Config) : HostStmt → Option (List Access)
  | .wr off v => some [Machine.wr c off v]
  | .rd off => some [Machine.rd c off]
  | .cmd i => (cmdWrite c i).map fun a => [a]
  | .crcOfTx s n => (cmdWrite c (.crcTx s n)).map fun a => [Machine.wr c 0x0000 (encode .crcInit), a]
  | .crcOfRx s n => (cmdWrite c (.crcRx s n)).map fun a => [Machine.wr c 0x0000 (encode .crcInit), a]
  | .crcSeed v => some [Machine.wr c 0x000C v]
  | .txLoad s bs => some (byteWrites c (0x1000 + 4 * s) bs)
  | .rxLoad s bs => some (byteWrites c (0x2000 + 4 * s) bs)
  | .check => some [Machine.rd c 0x0004]

/-- The transactions of a whole program, in the order written (R21). -/
def expandProgram (c : Config) : List HostStmt → Option (List Access)
  | [] => some []
  | l :: rest =>
    match l.expand c, expandProgram c rest with
    | some a, some b => some (a ++ b)
    | _, _ => none

/-- The host takes up these transactions after those it already has to make (log 3). -/
def State.issue (s : State) (as : List Access) : State := s.setPending (s.pending ++ as.map .access)

/-- The value of a hexadecimal digit, either case (log 14). -/
def hexDigit (ch : Char) : Option Nat :=
  let n := ch.toNat
  if 48 ≤ n ∧ n ≤ 57 then some (n - 48)
  else if 97 ≤ n ∧ n ≤ 102 then some (n - 87)
  else if 65 ≤ n ∧ n ≤ 70 then some (n - 55)
  else none

/-- A digit string in the given base, onto the value so far. -/
def digits (base acc : Nat) : List Char → Option Nat
  | [] => some acc
  | ch :: rest =>
    match hexDigit ch with
    | some d => if d < base then digits base (base * acc + d) rest else none
    | none => none

/-- An operand: decimal, or hexadecimal after `0x` (R76). -/
def number : List Char → Option Nat
  | [] => none
  | '0' :: 'x' :: ch :: rest => digits 16 0 (ch :: rest)
  | cs => digits 10 0 cs

/-- Leading spaces dropped. -/
def skipSpaces : List Char → List Char
  | ' ' :: rest => skipSpaces rest
  | cs => cs

/-- Spaces at either end dropped. -/
def trimSpaces (cs : List Char) : List Char := (skipSpaces (skipSpaces cs).reverse).reverse

/-- The pieces between commas, at least one. -/
def commaSplit : List Char → List (List Char)
  | [] => [[]]
  | ch :: rest =>
    if ch = ',' then [] :: commaSplit rest
    else
      match commaSplit rest with
      | p :: ps => (ch :: p) :: ps
      | [] => [[ch]]

/-- The operands of a line; none at all for an empty text. -/
def operandPieces (cs : List Char) : List (List Char) :=
  match trimSpaces cs with
  | [] => []
  | ds => (commaSplit ds).map trimSpaces

/-- A line's mnemonic and the text after its first space. -/
def splitMnemonic : List Char → List Char × List Char
  | [] => ([], [])
  | ' ' :: rest => ([], rest)
  | ch :: rest => (ch :: (splitMnemonic rest).1, (splitMnemonic rest).2)

/-- A bus offset: a number, or a register's name (R77). -/
def offsetText (cs : List Char) : Option Nat :=
  if cs = "CMD".toList then Target.offset .cmd
  else if cs = "STATUS".toList then Target.offset .status
  else if cs = "CTRL".toList then Target.offset .ctrl
  else if cs = "CRC".toList then Target.offset .crc
  else if cs = "CRC_OUT".toList then Target.offset .crcOut
  else if cs = "TX_LEN".toList then Target.offset .txLen
  else if cs = "RX_PLEN".toList then Target.offset .rxPlen
  else if cs = "RX_KIND".toList then Target.offset .rxKind
  else if cs = "RX_CALC".toList then Target.offset .rxCalc
  else if cs = "RX_RECV".toList then Target.offset .rxRecv
  else
    match cs with
    | 'T' :: 'X' :: '+' :: rest => (number rest).bind fun i => Target.offset (.tx i)
    | 'R' :: 'X' :: '+' :: rest => (number rest).bind fun i => Target.offset (.rx i)
    | _ => number cs

/-- A value that fits `w` bits. -/
def sized (w : Nat) (cs : List Char) : Option (BitVec w) :=
  (number cs).bind fun n => if n < 2 ^ w then some (BitVec.ofNat w n) else none

/-- A command's operand count and numbers, by its mnemonic (R76). -/
def commandText (m : List Char) (ops : List Nat) : Option Instr :=
  if m = "nop".toList then (match ops with | [] => some .nop | _ => none)
  else if m = "crc.init".toList then (match ops with | [] => some .crcInit | _ => none)
  else if m = "crc.byte".toList then (match ops with | [d] => some (.crcByte d) | _ => none)
  else if m = "crc.tx".toList then (match ops with | [s, n] => some (.crcTx s n) | _ => none)
  else if m = "crc.rx".toList then (match ops with | [s, n] => some (.crcRx s n) | _ => none)
  else if m = "clr.err".toList then (match ops with | [] => some .clrErr | _ => none)
  else if m = "build.cmd".toList then (match ops with | [n] => some (.buildCmd n) | _ => none)
  else if m = "build.query".toList then (match ops with | [] => some .buildQuery | _ => none)
  else if m = "parse".toList then (match ops with | [n] => some (.parse n) | _ => none)
  else none

/-- `tx.load` and `rx.load`: the first operand is the index, the others bytes, at least one (R78). -/
def loadText (mk : Nat → List Byte → HostStmt) : List (List Char) → Option HostStmt
  | first :: b :: more => (number first).bind fun s => ((b :: more).mapM (sized 8)).map fun bs => mk s bs
  | _ => none

/-- One line of a host program, without a comment (R76 to R78, log 14). -/
def parseLine (line : List Char) : Option HostStmt :=
  let m := (splitMnemonic (trimSpaces line)).1
  let pieces := operandPieces (splitMnemonic (trimSpaces line)).2
  if m = "wr".toList then
    match pieces with
    | [o, v] => (offsetText o).bind fun off => (sized 32 v).map fun x => .wr off x
    | _ => none
  else if m = "rd".toList then
    match pieces with
    | [o] => (offsetText o).map fun off => .rd off
    | _ => none
  else if m = "crc.seed".toList then
    match pieces with
    | [v] => (sized 32 v).map fun x => .crcSeed x
    | _ => none
  else if m = "tx.load".toList then loadText .txLoad pieces
  else if m = "rx.load".toList then loadText .rxLoad pieces
  else
    match pieces.mapM number with
    | none => none
    | some ops =>
      if m = "check".toList then (match ops with | [] => some .check | _ => none)
      else if m = "crc.of.tx".toList then (match ops with | [s, n] => some (.crcOfTx s n) | _ => none)
      else if m = "crc.of.rx".toList then (match ops with | [s, n] => some (.crcOfRx s n) | _ => none)
      else (commandText m ops).map fun i => .cmd i

/-- The word a command line assembles to; none where it is no command line or an operand does not fit (R76). -/
def assembleText (line : String) : Option Word :=
  match parseLine line.toList with
  | some (.cmd i) => assemble i
  | _ => none

end Sys2Proof.Machine
end

