-- ==== Sys2Proof/Safety.lean ====
section
/-! DEFINITION. The terms claims use: what a buffer holds, the frame of spec/41_frame.md R100 as a byte sequence,
command sequences, safe steps, and the invariant of the machine. -/

namespace Sys2Proof.Machine

/-- Every byte of `bs` stands written in `m`, from index `i` on. -/
def Holds (m : Memory) (i : Nat) (bs : List Byte) : Prop :=
  ∀ k, k < bs.length → Memory.read m (i + k) = bs[k]?

/-- A frame up to its checksum: header and payload, bytes 0 to 3+L (R100). -/
def frameBody (c : Config) (payload : List Byte) : List Byte := headerBytes c payload.length ++ payload

/-- The whole frame: the body, then W16 of its checksum (R100). -/
def frame (c : Config) (payload : List Byte) : List Byte :=
  frameBody c payload ++ [(w16 c.order (checksum c (frameBody c payload))).1,
    (w16 c.order (checksum c (frameBody c payload))).2]

/-- Commands run one after another, in the order the host writes them (R21, R75). -/
def execAll : List Instr → State → Answer
  | [], s => .next s
  | i :: rest, s =>
    match exec i s with
    | .next t => execAll rest t
    | .fault f => .fault f
    | .refused r => .refused r

/-- A safe step: one that has a next state. -/
def SafeStep (s : State) : Prop := ∃ t, step s = .next t

/-- The buffers are written throughout, so that no command can read an unwritten byte (R40, R153). -/
def FullyWritten (s : State) : Prop :=
  ∀ k, k < bufSize → (∃ b, Memory.read s.tx k = some b) ∧ ∃ b, Memory.read s.rx k = some b

/-- What holds after reset and is kept by every step. -/
structure State.Inv (s : State) : Prop where
  /-- P_BASE is 16 KiB aligned (R46). -/
  base_aligned : s.cfg.wf = true
  /-- TX is in canonical form within its 261 bytes (R38). -/
  tx_wf : Memory.wf s.tx = true
  /-- RX is in canonical form within its 261 bytes (R39). -/
  rx_wf : Memory.wf s.rx = true
  /-- TX_LEN is 0 or the length of a frame the serializer can build (R33). -/
  tx_len_range : s.txLen = 0 ∨ (6 ≤ s.txLen.toNat ∧ s.txLen.toNat ≤ 260)
  /-- A result other than OK has set ERR (R26, R131). -/
  failure_sets_err : s.status.result ≠ .ok → s.status.err = true
  /-- CRC_MM says exactly whether RX_CALC and RX_RECV differ (R27, R36, R37). -/
  crc_mm_iff : s.status.crcMm = true ↔ s.rxCalc ≠ s.rxRecv
  /-- A query has a 4-byte payload (R28). -/
  query_len : s.status.isQuery = true → s.rxPlen = 4
  /-- While RX_OK is 1 the latest result is none of PARSE's failures (R29, R105). -/
  rx_ok_result : s.status.rxOk = true →
    s.status.result ≠ .truncated ∧ s.status.result ≠ .badMarker ∧ s.status.result ≠ .crcMismatch
  /-- CRC_MISMATCH is only reported with CRC_MM set (R108, R130). -/
  mismatch_result : s.status.result = .crcMismatch → s.status.crcMm = true

end Sys2Proof.Machine
end

