-- ==== Sys2Proof/Certificates/Slice0/Obligations.lean ====
section
/-! DEFINITION. The statements about the machine, from the numbered rules of spec/ (OBLIGATIONS.json gives each its
rules). In a statement about the bus, an access at offset `off` is one at P_BASE + off, 4 bytes wide; that the
host's events stand in State.pending and a step takes the first of them off is the model's own form of the host (log 3). -/

open Sys2Proof Sys2Proof.Machine

/-! ### Command words -/

/-- The opcode map, row for row: the word of each command and its operand fields (R72). -/
def Obligations.OpcodeMapIsExact : Prop :=
  ∀ w : Word,
    (decode w = .ok .nop ↔ w = 0x00000000#32) ∧
    (decode w = .ok .crcInit ↔ w = 0x01000000#32) ∧
    (∀ d, decode w = .ok (.crcByte d) ↔ w &&& 0xFFFFFF00#32 = 0x02000000#32 ∧ d = (w &&& 0xFF#32).toNat) ∧
    (∀ a n, decode w = .ok (.crcTx a n) ↔
      w &&& 0xFFE00E00#32 = 0x03000000#32 ∧ a = ((w >>> 12) &&& 0x1FF#32).toNat ∧ n = (w &&& 0x1FF#32).toNat) ∧
    (∀ a n, decode w = .ok (.crcRx a n) ↔
      w &&& 0xFFE00E00#32 = 0x04000000#32 ∧ a = ((w >>> 12) &&& 0x1FF#32).toNat ∧ n = (w &&& 0x1FF#32).toNat) ∧
    (decode w = .ok .clrErr ↔ w = 0x0F000000#32) ∧
    (∀ n, decode w = .ok (.buildCmd n) ↔ w &&& 0xFFFFFE00#32 = 0x10000000#32 ∧ n = (w &&& 0x1FF#32).toNat) ∧
    (decode w = .ok .buildQuery ↔ w = 0x11000000#32) ∧
    (∀ n, decode w = .ok (.parse n) ↔ w &&& 0xFFFFFE00#32 = 0x20000000#32 ∧ n = (w &&& 0x1FF#32).toNat)

/-- Words of 95_test_vectors.md decode to the commands they stand for there. -/
def Obligations.SpecVectorWordsDecode : Prop :=
  decode 0x00000000#32 = .ok .nop ∧ decode 0x01000000#32 = .ok .crcInit ∧
  decode 0x020000AB#32 = .ok (.crcByte 0xAB) ∧ decode 0x03004005#32 = .ok (.crcTx 4 5) ∧
  decode 0x040FC009#32 = .ok (.crcRx 252 9) ∧ decode 0x041FF1FF#32 = .ok (.crcRx 511 511) ∧
  decode 0x0F000000#32 = .ok .clrErr ∧ decode 0x100000FE#32 = .ok (.buildCmd 254) ∧
  decode 0x11000000#32 = .ok .buildQuery ∧ decode 0x20000105#32 = .ok (.parse 261)

/-- Decoding the word of a well-formed command gives the command back, every operand at every value its field holds. -/
def Obligations.DecodeInvertsEncode : Prop :=
  ∀ i : Instr, i.WellFormed → decode (encode i) = .ok i

/-- A word that decodes has a well-formed command, and is that command's one word. -/
def Obligations.EncodeInvertsDecode : Prop :=
  ∀ (w : Word) (i : Instr), decode w = .ok i → i.WellFormed ∧ encode i = w

/-- At most one row matches a word; a word a row matches is that row's command; a word none matches ends as ILLEGAL
(R66). -/
def Obligations.OneRowMatchesOrIllegal : Prop :=
  (∀ (w : Word) (j k : Nat) (r r' : OpRow), opTable[j]? = some r → opTable[k]? = some r' →
    w &&& r.mask = r.value → w &&& r'.mask = r'.value → j = k) ∧
  (∀ (w : Word) (r : OpRow), r ∈ opTable → w &&& r.mask = r.value → decode w = .ok (r.command w) ∧
    ∀ s : State, runCommand w s = exec (r.command w) s) ∧
  (∀ w : Word, (∀ r ∈ opTable, w &&& r.mask ≠ r.value) → (∃ e, decode w = .error e) ∧
    ∀ s : State, runCommand w s = .next { s with status := { s.status with result := .illegal, err := true } })

/-- The illegal words are those with an unlisted opcode and those with a reserved bit set, and they end with
RESULT = ILLEGAL and ERR = 1, nothing else changing (R73). -/
def Obligations.IllegalEncodingsAreUnlistedOrReserved : Prop :=
  ∀ w : Word,
    ((∃ e, decode w = .error e) ↔
      ((0x05 ≤ (w >>> 24).toNat ∧ (w >>> 24).toNat ≤ 0x0E) ∨ (0x12 ≤ (w >>> 24).toNat ∧ (w >>> 24).toNat ≤ 0x1F) ∨
        0x21 ≤ (w >>> 24).toNat) ∨
      ∃ p ∈ [(0x00, 0x00FFFFFF#32), (0x01, 0x00FFFFFF#32), (0x02, 0x00FFFF00#32), (0x03, 0x00E00E00#32),
        (0x04, 0x00E00E00#32), (0x0F, 0x00FFFFFF#32), (0x10, 0x00FFFE00#32), (0x11, 0x00FFFFFF#32),
        (0x20, 0x00FFFE00#32)], (w >>> 24).toNat = p.1 ∧ w &&& p.2 ≠ 0#32) ∧
    ∀ (s : State) (e : IllegalWord), decode w = .error e →
      runCommand w s = .next { s with status := { s.status with result := .illegal, err := true } }

/-- The assembler's words, and the operands it rejects (R76). -/
def Obligations.AssemblerWordsAndRejections : Prop :=
  assemble .nop = some 0x00000000#32 ∧ assemble .crcInit = some 0x01000000#32 ∧
  assemble .clrErr = some 0x0F000000#32 ∧ assemble .buildQuery = some 0x11000000#32 ∧
  (∀ d, assemble (.crcByte d) = if d > 255 then none else some (0x02000000#32 ||| BitVec.ofNat 32 d)) ∧
  (∀ a n, assemble (.crcTx a n) =
    if a > 511 ∨ n > 511 then none
    else some (0x03000000#32 ||| (BitVec.ofNat 32 a <<< 12) ||| BitVec.ofNat 32 n)) ∧
  (∀ a n, assemble (.crcRx a n) =
    if a > 511 ∨ n > 511 then none
    else some (0x04000000#32 ||| (BitVec.ofNat 32 a <<< 12) ||| BitVec.ofNat 32 n)) ∧
  (∀ n, assemble (.buildCmd n) = if n > 511 then none else some (0x10000000#32 ||| BitVec.ofNat 32 n)) ∧
  (∀ n, assemble (.parse n) = if n > 511 then none else some (0x20000000#32 ||| BitVec.ofNat 32 n))

/-- The pseudo-instructions' expansions, and that after crc.of.tx and crc.of.rx CRC_OUT reads the checksum of the
range (R78). That a load past index 260 stands for the offset the formula gives, unchecked, is the model's own choice
(log 14). -/
def Obligations.PseudoInstructionsExpand : Prop :=
  (∀ (c : Config) (a n : Nat), a ≤ 511 → n ≤ 511 →
    (HostStmt.crcOfTx a n).expand c = some [wr c 0 0x01000000#32, wr c 0 (encode (.crcTx a n))] ∧
    (HostStmt.crcOfRx a n).expand c = some [wr c 0 0x01000000#32, wr c 0 (encode (.crcRx a n))]) ∧
  (∀ (c : Config) (v : Word), (HostStmt.crcSeed v).expand c = some [wr c 0x00C v]) ∧
  (∀ c : Config, HostStmt.check.expand c = some [rd c 0x004]) ∧
  (∀ (c : Config) (a : Nat) (bs : List Byte), ∃ t r, (HostStmt.txLoad a bs).expand c = some t ∧
    (HostStmt.rxLoad a bs).expand c = some r ∧ t.length = bs.length ∧ r.length = bs.length ∧
    ∀ (k : Nat) (b : Byte), bs[k]? = some b →
      t[k]? = some (wr c (0x1000 + 4 * (a + k)) (b.zeroExtend 32)) ∧
      r[k]? = some (wr c (0x2000 + 4 * (a + k)) (b.zeroExtend 32))) ∧
  (∀ (s : State) (a : Nat) (bs : List Byte), a + bs.length ≤ 261 → Holds s.tx a bs →
    ∃ t, execAll [.crcInit, .crcTx a bs.length] s = .next t ∧ fin t.cfg t.crc = checksum s.cfg bs) ∧
  (∀ (s : State) (a : Nat) (bs : List Byte), a + bs.length ≤ 261 → Holds s.rx a bs →
    ∃ t, execAll [.crcInit, .crcRx a bs.length] s = .next t ∧ fin t.cfg t.crc = checksum s.cfg bs)

/-! ### The bus -/

/-- A step whose bus event is a write of `w` to CMD runs the command `w` decodes to, or handles the illegal word; `w`
itself is stored nowhere; a read of CMD returns 0 and has no other effect (R23). That a write leaves no read data is the
model's own choice (log 4). -/
def Obligations.CmdWriteRunsDecodedCommand : Prop :=
  ∀ (s : State) (rest : List BusEvent),
    (∀ w i, s.pending = .access ⟨s.cfg.base + 0, 4, .write w⟩ :: rest → decode w = .ok i →
      step s = exec i { s with pending := rest, rdata := none }) ∧
    (∀ w e, s.pending = .access ⟨s.cfg.base + 0, 4, .write w⟩ :: rest → decode w = .error e →
      step s = .next { s with pending := rest, rdata := none,
                              status := { s.status with result := .illegal, err := true } }) ∧
    (s.pending = .access ⟨s.cfg.base + 0, 4, .read⟩ :: rest →
      step s = .next { s with pending := rest, rdata := some 0#32 })

/-- A word that is no command changes STATUS.RESULT and STATUS.ERR and nothing else; 0x05000000 and 0x10800003 are two
such words (R122). -/
def Obligations.IllegalWordChangesStatusOnly : Prop :=
  (∀ (w : Word) (e : IllegalWord) (s : State), decode w = .error e →
    runCommand w s = .next { s with status := { s.status with result := .illegal, err := true } }) ∧
  (∃ e, decode 0x05000000#32 = .error e) ∧ ∃ e, decode 0x10800003#32 = .error e

/-- The word placed for the next step is the one that step runs (the model's own convention, log 3). That the
write leaves no read data is the model's own choice (log 4). -/
def Obligations.PlacedWordIsRunNext : Prop :=
  ∀ (s : State) (w : Nat) (i : Instr), decodeTableWord 32 w = some i →
    step (s.withFetchWord 32 w) = exec i { s with rdata := none }

/-- What a bus read returns at every offset of the window, and that it changes nothing (R49). -/
def Obligations.BusReadReturnsAddressedValue : Prop :=
  ∀ (s : State) (rest : List BusEvent) (off : Nat), s.pending = .access ⟨s.cfg.base + off, 4, .read⟩ :: rest →
    (∀ p ∈ [(0x000, 0#32), (0x004, s.status.word), (0x008, if s.crcEnforce then 1#32 else 0#32),
        (0x00C, s.crc.zeroExtend 32), (0x010, (fin s.cfg s.crc).zeroExtend 32), (0x014, s.txLen.zeroExtend 32),
        (0x018, s.rxPlen.zeroExtend 32), (0x01C, s.rxKind.zeroExtend 32), (0x020, s.rxCalc.zeroExtend 32),
        (0x024, s.rxRecv.zeroExtend 32)],
      off = p.1 → step s = .next { s with pending := rest, rdata := some p.2 }) ∧
    (∀ i, i ≤ 260 → off = 0x1000 + 4 * i →
      (∀ b, Memory.read s.tx i = some b →
        step s = .next { s with pending := rest, rdata := some (b.zeroExtend 32) }) ∧
      (Memory.read s.tx i = none → step s = .fault (.unwrittenByte .tx i))) ∧
    (∀ i, i ≤ 260 → off = 0x2000 + 4 * i →
      (∀ b, Memory.read s.rx i = some b →
        step s = .next { s with pending := rest, rdata := some (b.zeroExtend 32) }) ∧
      (Memory.read s.rx i = none → step s = .fault (.unwrittenByte .rx i))) ∧
    (off % 4 = 0 →
      (0x0028 ≤ off ∧ off ≤ 0x0FFC) ∨ (0x1414 ≤ off ∧ off ≤ 0x1FFC) ∨ (0x2414 ≤ off ∧ off ≤ 0x3FFC) →
      step s = .next { s with pending := rest, rdata := some 0#32 })

/-- What a bus write does at every offset of the window, and that an access of another width or alignment is refused
(R50). Three clauses are the model's own choice and no words of R50: that an access of another width which is also
misaligned is refused for its width (log 8), the names of the two refusals (log 8), and that a write leaves no read data
(log 4). -/
def Obligations.BusWriteActsByOffset : Prop :=
  ∀ (s : State) (rest : List BusEvent),
    (∀ (off : Nat) (w : Word), s.pending = .access ⟨s.cfg.base + off, 4, .write w⟩ :: rest →
      (off = 0x000 → (∀ i, decode w = .ok i → step s = exec i { s with pending := rest, rdata := none }) ∧
        ∀ e, decode w = .error e → step s = .next { s with
          pending := rest, rdata := none, status := { s.status with result := .illegal, err := true } }) ∧
      (off = 0x008 → step s = .next { s with pending := rest, rdata := none, crcEnforce := w.getLsbD 0 }) ∧
      (off = 0x00C → step s = .next { s with pending := rest, rdata := none, crc := w.extractLsb' 0 16 }) ∧
      (∀ i, i ≤ 260 → off = 0x1000 + 4 * i → ∃ m,
        step s = .next { s with pending := rest, rdata := none, tx := m } ∧
        Memory.read m i = some (w.extractLsb' 0 8) ∧ ∀ j, j ≠ i → Memory.read m j = Memory.read s.tx j) ∧
      (∀ i, i ≤ 260 → off = 0x2000 + 4 * i → ∃ m,
        step s = .next { s with pending := rest, rdata := none, rx := m } ∧
        Memory.read m i = some (w.extractLsb' 0 8) ∧ ∀ j, j ≠ i → Memory.read m j = Memory.read s.rx j) ∧
      (off ∈ [0x004, 0x010, 0x014, 0x018, 0x01C, 0x020, 0x024] →
        step s = .next { s with pending := rest, rdata := none }) ∧
      (off % 4 = 0 →
        (0x0028 ≤ off ∧ off ≤ 0x0FFC) ∨ (0x1414 ≤ off ∧ off ≤ 0x1FFC) ∨ (0x2414 ≤ off ∧ off ≤ 0x3FFC) →
        step s = .next { s with pending := rest, rdata := none })) ∧
    (∀ a : Access, s.pending = .access a :: rest → s.cfg.base ≤ a.addr → a.addr < s.cfg.base + 0x4000 →
      (a.bytes ≠ 4 → step s = .refused (.unsupportedWidth a.bytes)) ∧
      (a.bytes = 4 → (a.addr - s.cfg.base) % 4 ≠ 0 → step s = .refused (.misaligned a.addr)))

/-- Reserved offsets read 0 and ignore writes, read-only registers ignore writes, the reserved bits of every register
read 0 and ignore writes; none of it changes STATUS or anything else (R51). That a write leaves no read data is the
model's own choice (log 4). -/
def Obligations.ReservedReadsZeroAndIgnoresWrites : Prop :=
  ∀ (s : State) (rest : List BusEvent) (off : Nat),
    (off % 4 = 0 →
      (0x0028 ≤ off ∧ off ≤ 0x0FFC) ∨ (0x1414 ≤ off ∧ off ≤ 0x1FFC) ∨ (0x2414 ≤ off ∧ off ≤ 0x3FFC) →
      (s.pending = .access ⟨s.cfg.base + off, 4, .read⟩ :: rest →
        step s = .next { s with pending := rest, rdata := some 0#32 }) ∧
      ∀ w, s.pending = .access ⟨s.cfg.base + off, 4, .write w⟩ :: rest →
        step s = .next { s with pending := rest, rdata := none }) ∧
    (off ∈ [0x004, 0x010, 0x014, 0x018, 0x01C, 0x020, 0x024] →
      ∀ w, s.pending = .access ⟨s.cfg.base + off, 4, .write w⟩ :: rest →
        step s = .next { s with pending := rest, rdata := none }) ∧
    (∀ p ∈ [(0x000, 0), (0x004, 8), (0x008, 1), (0x00C, 16), (0x010, 16), (0x014, 9), (0x018, 8), (0x01C, 8),
        (0x020, 16), (0x024, 16)],
      off = p.1 → s.pending = .access ⟨s.cfg.base + off, 4, .read⟩ :: rest →
        ∃ v : Word, step s = .next { s with pending := rest, rdata := some v } ∧
          ∀ k, p.2 ≤ k → v.getLsbD k = false) ∧
    (∀ (w w' : Word), (off = 0x008 ∧ w.getLsbD 0 = w'.getLsbD 0) ∨
        (off = 0x00C ∧ w.extractLsb' 0 16 = w'.extractLsb' 0 16) →
      step { s with pending := .access ⟨s.cfg.base + off, 4, .write w⟩ :: rest } =
        step { s with pending := .access ⟨s.cfg.base + off, 4, .write w'⟩ :: rest })

/-- Repeating a read returns the same value; repeating a write to CTRL, CRC, TX[i] or RX[i] leaves what one write
leaves; a CMD write is not idempotent: CRC_BYTE written twice feeds its byte twice (R52). -/
def Obligations.ReadsAndDataWritesAreIdempotent : Prop :=
  (∀ (s t : State) (a : Access) (rest : List BusEvent), a.op = .read →
    s.pending = .access a :: .access a :: rest → step s = .next t →
    t = { s with pending := .access a :: rest, rdata := t.rdata } ∧ step t = .next { t with pending := rest }) ∧
  (∀ (s t : State) (off : Nat) (w : Word) (rest : List BusEvent),
    off = 0x008 ∨ off = 0x00C ∨ (∃ i, i ≤ 260 ∧ (off = 0x1000 + 4 * i ∨ off = 0x2000 + 4 * i)) →
    s.pending = .access ⟨s.cfg.base + off, 4, .write w⟩ :: .access ⟨s.cfg.base + off, 4, .write w⟩ :: rest →
    step s = .next t → step t = .next { t with pending := rest }) ∧
  (∀ (s : State) (d : Nat) (rest : List BusEvent), d ≤ 255 →
    s.pending = .access ⟨s.cfg.base, 4, .write (encode (.crcByte d))⟩ ::
      .access ⟨s.cfg.base, 4, .write (encode (.crcByte d))⟩ :: rest →
    ∃ t u, step s = .next t ∧ step t = .next u ∧
      u.crc = upd s.cfg (upd s.cfg s.crc (BitVec.ofNat 8 d)) (BitVec.ofNat 8 d))

/-- An access at an address outside the block's window stops by name (the model's choice, log 8). -/
def Obligations.OutsideWindowFaults : Prop :=
  ∀ (s : State) (a : Access) (rest : List BusEvent), s.pending = .access a :: rest →
    a.addr < s.cfg.base ∨ s.cfg.base + 0x4000 ≤ a.addr → step s = .fault (.outsideWindow a.addr)

/-- The layout of STATUS and the numbers of the result codes (R24, R25). -/
def Obligations.StatusWordLayout : Prop :=
  (∀ v : Status, v.word.toNat =
    v.result.code.toNat + 16 * v.err.toNat + 32 * v.crcMm.toNat + 64 * v.isQuery.toNat + 128 * v.rxOk.toNat) ∧
  Result.code .ok = 0 ∧ Result.code .illegal = 1 ∧ Result.code .badRange = 2 ∧ Result.code .tooLarge = 3 ∧
  Result.code .truncated = 4 ∧ Result.code .badMarker = 5 ∧ Result.code .crcMismatch = 6

/-- With no bus event to come the block holds its state (R144). That there is such a step is the model's own choice
(log 3). -/
def Obligations.IdleBlockHoldsItsState : Prop :=
  ∀ s : State, s.pending = [] → step s = .next s

/-- A step takes the oldest bus event and leaves the others in their order, a reset too: the model's own choice of how the
host stands in State (log 3), made so that transactions take effect in their order (R53, R57). -/
def Obligations.StepTakesTheOldestEvent : Prop :=
  ∀ s t : State, step s = .next t → t.pending = s.pending.tail

/-! ### Reset -/

/-- A reset edge gives every register its reset value and clears every written mark, whatever transaction it cuts
short (R43, R151). That the reset leaves no read data and the later events in place is the model's own choice (log 4,
log 3). -/
def Obligations.ResetEdgeGivesResetValues : Prop :=
  ∀ (s : State) (cut : Option Access) (rest : List BusEvent), s.pending = .reset cut :: rest →
    ∃ t, step s = .next t ∧
      t.status = { result := .ok, err := false, crcMm := false, isQuery := false, rxOk := false } ∧
      t.status.word = 0#32 ∧ t.crcEnforce = true ∧ t.crc = s.cfg.init ∧ fin t.cfg t.crc = fin s.cfg s.cfg.init ∧
      t.txLen = 0 ∧ t.rxPlen = 0 ∧ t.rxKind = 0 ∧ t.rxCalc = 0 ∧ t.rxRecv = 0 ∧
      (∀ i, Memory.read t.tx i = none ∧ Memory.read t.rx i = none) ∧
      t.cfg = s.cfg ∧ t.pending = rest ∧ t.rdata = none

/-- The model's start: the reset state at the default parameters, with no event to come (R43, R6; P_BASE = 0 and the
empty event list are the model's choices, log 2 and log 3). -/
def Obligations.StartIsResetStateAtDefaults : Prop :=
  State.reset.status.word = 0#32 ∧ State.reset.crcEnforce = true ∧ State.reset.crc = 0xFFFF#16 ∧
  fin State.reset.cfg State.reset.crc = 0xFFFF#16 ∧ State.reset.txLen = 0 ∧ State.reset.rxPlen = 0 ∧
  State.reset.rxKind = 0 ∧ State.reset.rxCalc = 0 ∧ State.reset.rxRecv = 0 ∧
  (∀ i, Memory.read State.reset.tx i = none ∧ Memory.read State.reset.rx i = none) ∧
  State.reset.cfg = { poly := 0x1021#16, init := 0xFFFF#16, refin := false, refout := false, xorout := 0x0000#16,
                      order := .be, marker := 0xCAFE#16, kind := 0x01#8,
                      qtag := { b0 := 0x4F#8, b1 := 0x42#8, b2 := 0x4F#8, b3 := 0x54#8 }, base := 0 } ∧
  State.reset.pending = []

/-! ### Control and CRC commands -/

/-- NOP sets RESULT to OK and changes nothing else (R120). -/
def Obligations.NopSetsResultOnly : Prop :=
  (∀ s : State, exec .nop s = .next { s with status := { s.status with result := .ok } }) ∧
  ∀ w : Word, (decode w = .ok .nop ↔ w = 0x00000000#32) ∧
    (w >>> 24 = 0x00#32 → w ≠ 0x00000000#32 → ∃ e, decode w = .error e)

/-- CLR_ERR clears ERR, sets RESULT to OK and changes nothing else (R121). -/
def Obligations.ClrErrClearsErrOnly : Prop :=
  (∀ s : State, exec .clrErr s = .next { s with status := { s.status with err := false, result := .ok } }) ∧
  ∀ w : Word, (decode w = .ok .clrErr ↔ w = 0x0F000000#32) ∧
    (w >>> 24 = 0x0F#32 → w ≠ 0x0F000000#32 → (∃ e, decode w = .error e) ∧
      ∀ s, runCommand w s = .next { s with status := { s.status with result := .illegal, err := true } })

/-- CRC_INIT sets CRC.VALUE to P_INIT and RESULT to OK and changes nothing else (R88). -/
def Obligations.CrcInitLoadsInit : Prop :=
  (∀ s : State, exec .crcInit s =
    .next { s with crc := s.cfg.init, status := { s.status with result := .ok } }) ∧
  ∀ w : Word, (decode w = .ok .crcInit ↔ w = 0x01000000#32) ∧
    (w >>> 24 = 0x01#32 → w ≠ 0x01000000#32 → ∃ e, decode w = .error e)

/-- CRC_BYTE D feeds D to the generator, sets RESULT to OK and changes nothing else; with the corner values of Upd
(R89). -/
def Obligations.CrcByteFeedsOneByte : Prop :=
  (∀ (s : State) (d : Nat), d ≤ 255 → exec (.crcByte d) s =
    .next { s with crc := upd s.cfg s.crc (BitVec.ofNat 8 d), status := { s.status with result := .ok } }) ∧
  (∀ w d, decode w = .ok (.crcByte d) ↔ w &&& 0xFFFFFF00#32 = 0x02000000#32 ∧ d = (w &&& 0xFF#32).toNat) ∧
  (∀ w : Word, w >>> 24 = 0x02#32 → w &&& 0x00FFFF00#32 ≠ 0#32 → ∃ e, decode w = .error e) ∧
  upd Config.default 0xFFFF#16 0x00#8 = 0xE1F0#16 ∧ upd Config.default 0xFFFF#16 0x31#8 = 0xC782#16 ∧
  (∀ c : Config, c.refin = false → upd c 0x0000#16 0x00#8 = 0x0000#16 ∧ upd c 0x0000#16 0x01#8 = c.poly)

/-- CRC_TX S, N: BAD_RANGE past the buffer, else TX[S .. S+N-1] fed in increasing index from CRC.VALUE on, an
unwritten byte of the range being a fault (R90). That the fault names the first unwritten byte is deduced (log 7), and
that operands past their fields also end BAD_RANGE is the model's own choice (log 13). -/
def Obligations.CrcTxFeedsRange : Prop :=
  (∀ (s : State) (a n : Nat), a + n > 261 → exec (.crcTx a n) s =
    .next { s with status := { s.status with result := .badRange, err := true } }) ∧
  (∀ (s : State) (a : Nat) (bs : List Byte), a + bs.length ≤ 261 → Holds s.tx a bs →
    exec (.crcTx a bs.length) s =
      .next { s with crc := bs.foldl (upd s.cfg) s.crc, status := { s.status with result := .ok } }) ∧
  (∀ (s : State) (a n k : Nat), a + n ≤ 261 → k < n → Memory.read s.tx (a + k) = none →
    ∃ j, j ≤ k ∧ Memory.read s.tx (a + j) = none ∧ exec (.crcTx a n) s = .fault (.unwrittenByte .tx (a + j))) ∧
  ∀ w a n, decode w = .ok (.crcTx a n) ↔
    w &&& 0xFFE00E00#32 = 0x03000000#32 ∧ a = ((w >>> 12) &&& 0x1FF#32).toNat ∧ n = (w &&& 0x1FF#32).toNat

/-- CRC_RX S, N: as CRC_TX over RX; the PARSE results and RX stay (R91). That the fault names the first unwritten byte is
deduced (log 7), and that operands past their fields also end BAD_RANGE is the model's own choice (log 13). -/
def Obligations.CrcRxFeedsRange : Prop :=
  (∀ (s : State) (a n : Nat), a + n > 261 → exec (.crcRx a n) s =
    .next { s with status := { s.status with result := .badRange, err := true } }) ∧
  (∀ (s : State) (a : Nat) (bs : List Byte), a + bs.length ≤ 261 → Holds s.rx a bs →
    exec (.crcRx a bs.length) s =
      .next { s with crc := bs.foldl (upd s.cfg) s.crc, status := { s.status with result := .ok } }) ∧
  (∀ (s : State) (a n k : Nat), a + n ≤ 261 → k < n → Memory.read s.rx (a + k) = none →
    ∃ j, j ≤ k ∧ Memory.read s.rx (a + j) = none ∧ exec (.crcRx a n) s = .fault (.unwrittenByte .rx (a + j))) ∧
  ∀ w a n, decode w = .ok (.crcRx a n) ↔
    w &&& 0xFFE00E00#32 = 0x04000000#32 ∧ a = ((w >>> 12) &&& 0x1FF#32).toNat ∧ n = (w &&& 0x1FF#32).toNat

/-- CRC arithmetic is XOR over GF(2): Upd is linear in the register and the byte together, for every parameter set
(R85, R93). -/
def Obligations.UpdIsLinear : Prop :=
  ∀ (c : Config) (r r' : Half) (b b' : Byte), upd c (r ^^^ r') (b ^^^ b') = upd c r b ^^^ upd c r' b'

/-- The reference values of the generator at the default profile and at one with reflection (R87 and
95_test_vectors.md V2.8, V2.12, V2.14, V2.22). -/
def Obligations.CrcReferenceValues : Prop :=
  checksum Config.default [] = 0xFFFF#16 ∧
  checksum Config.default [0x01#8, 0x02#8, 0x03#8] = 0xADAD#16 ∧
  checksum Config.default [0x31#8, 0x32#8, 0x33#8, 0x34#8, 0x35#8, 0x36#8, 0x37#8, 0x38#8, 0x39#8] = 0x29B1#16 ∧
  (let modbus := { Config.default with poly := 0x8005#16, refin := true, refout := true }
   checksum modbus [0x31#8, 0x32#8, 0x33#8, 0x34#8, 0x35#8, 0x36#8, 0x37#8, 0x38#8, 0x39#8] = 0x4B37#16)

/-- Feeding a sequence in pieces gives the register that feeding it whole gives: split ranges, single bytes, and a
register saved and written back over the bus (R92). -/
def Obligations.FeedingInPiecesIsFeedingWhole : Prop :=
  (∀ (s t : State) (a n m : Nat), exec (.crcTx a (n + m)) s = .next t → a + n + m ≤ 261 →
    execAll [.crcTx a n, .crcTx (a + n) m] s = .next t) ∧
  (∀ (s t : State) (a n m : Nat), exec (.crcRx a (n + m)) s = .next t → a + n + m ≤ 261 →
    execAll [.crcRx a n, .crcRx (a + n) m] s = .next t) ∧
  (∀ (s : State) (a : Nat) (bs : List Byte), a + bs.length ≤ 261 → Holds s.tx a bs →
    ∃ t u, exec (.crcTx a bs.length) s = .next t ∧
      execAll (bs.map fun b => .crcByte b.toNat) s = .next u ∧ u.crc = t.crc) ∧
  (∀ (s t : State) (w : Word) (rest : List BusEvent) (bs : List Byte),
    s.pending = .access ⟨s.cfg.base + 0x00C, 4, .write w⟩ :: rest → step s = .next t →
    ∃ u, execAll (bs.map fun b => .crcByte b.toNat) t = .next u ∧
      u.crc = bs.foldl (upd s.cfg) (w.extractLsb' 0 16))

/-- A frame followed by its own trailer leaves the register 0, where nothing is reflected, the final XOR is 0 and the
trailer is most significant byte first (95_test_vectors.md V2.19). -/
def Obligations.FrameWithTrailerLeavesZero : Prop :=
  ∀ (c : Config) (p : List Byte), c.refin = false → c.refout = false → c.xorout = 0#16 → c.order = .be →
    raw c (frame c p) = 0#16

/-! ### Frames -/

/-- The frame layout: marker, kind, length, payload, checksum, each at its offset; at most 261 bytes (R100). -/
def Obligations.FrameLayout : Prop :=
  ∀ (c : Config) (p : List Byte), p.length ≤ 255 →
    (frame c p).length = 4 + p.length + 2 ∧ (frame c p).length ≤ 261 ∧
    (frame c p)[0]? = some (w16 c.order c.marker).1 ∧ (frame c p)[1]? = some (w16 c.order c.marker).2 ∧
    (frame c p)[2]? = some c.kind ∧ (∃ b : Byte, (frame c p)[3]? = some b ∧ b.toNat = p.length) ∧
    (∀ k, k < p.length → (frame c p)[4 + k]? = p[k]?) ∧
    (frame c p)[4 + p.length]? = some (w16 c.order (checksum c ((frame c p).take (4 + p.length)))).1 ∧
    (frame c p)[5 + p.length]? = some (w16 c.order (checksum c ((frame c p).take (4 + p.length)))).2

/-- W16 by byte order, and R16 its inverse both ways (R10, R47). -/
def Obligations.WireOrderRoundTrips : Prop :=
  (∀ v : Half, (w16 .be v).1.toNat * 256 + (w16 .be v).2.toNat = v.toNat ∧
    (w16 .le v).2.toNat * 256 + (w16 .le v).1.toNat = v.toNat) ∧
  (∀ (o : WireOrder) (v : Half), r16 o (w16 o v).1 (w16 o v).2 = v) ∧
  ∀ (o : WireOrder) (b0 b1 : Byte), w16 o (r16 o b0 b1) = (b0, b1)

/-- BUILD_CMD N: the frame of the payload in TX[4 .. 3+N] stands in TX, the rest of TX stays, CRC.VALUE and TX_LEN are
set, CRC_OUT is the trailer; TOO_LARGE from 255 on; an unwritten payload byte is a fault (R101). That an N past its
field, above 511, also ends TOO_LARGE is the model's own choice (log 13). -/
def Obligations.BuildCmdSerializesThePayload : Prop :=
  (∀ (s : State) (p : List Byte), p.length ≤ 254 → Holds s.tx 4 p →
    ∃ t, exec (.buildCmd p.length) s = .next t ∧ Holds t.tx 0 (frame s.cfg p) ∧
      (∀ a, 6 + p.length ≤ a → Memory.read t.tx a = Memory.read s.tx a) ∧
      t = { s with tx := t.tx, crc := raw s.cfg ((frame s.cfg p).take (4 + p.length)),
                   txLen := BitVec.ofNat 9 (6 + p.length), status := { s.status with result := .ok } } ∧
      ∀ c0 c1, Memory.read t.tx (4 + p.length) = some c0 → Memory.read t.tx (5 + p.length) = some c1 →
        fin t.cfg t.crc = r16 t.cfg.order c0 c1) ∧
  (∀ (s : State) (n : Nat), 255 ≤ n → exec (.buildCmd n) s =
    .next { s with status := { s.status with result := .tooLarge, err := true } }) ∧
  (∀ (s : State) (n k : Nat), n ≤ 254 → k < n → Memory.read s.tx (4 + k) = none →
    ∃ j, j < n ∧ Memory.read s.tx (4 + j) = none ∧ exec (.buildCmd n) s = .fault (.unwrittenByte .tx (4 + j))) ∧
  ∀ w n, decode w = .ok (.buildCmd n) ↔ w &&& 0xFFFFFE00#32 = 0x10000000#32 ∧ n = (w &&& 0x1FF#32).toNat

/-- BUILD_QUERY: the frame of P_QTAG stands in TX[0..9], the rest of TX stays, CRC.VALUE and TX_LEN are set; it always
completes (R104). -/
def Obligations.BuildQuerySerializesTheTag : Prop :=
  (∀ s : State, ∃ t, exec .buildQuery s = .next t ∧ Holds t.tx 0 (frame s.cfg s.cfg.qtag.toList) ∧
    (∀ a, 10 ≤ a → Memory.read t.tx a = Memory.read s.tx a) ∧
    t = { s with tx := t.tx, crc := raw s.cfg ((frame s.cfg s.cfg.qtag.toList).take 8), txLen := 10,
                 status := { s.status with result := .ok } }) ∧
  ∀ w : Word, (decode w = .ok .buildQuery ↔ w = 0x11000000#32) ∧
    (w >>> 24 = 0x11#32 → w ≠ 0x11000000#32 → ∃ e, decode w = .error e)

/-- A payload of 255 bytes or more ends TOO_LARGE with TX, TX_LEN and CRC as they were; longer ones than 511 have no
encoding (R111). -/
def Obligations.OversizedPayloadIsTooLarge : Prop :=
  (∀ (s : State) (n : Nat), 255 ≤ n → n ≤ 511 →
    ∃ t, exec (.buildCmd n) s = .next t ∧ t.status.result = .tooLarge ∧ t.status.err = true ∧ t.tx = s.tx ∧
      t.txLen = s.txLen ∧ t.crc = s.crc) ∧
  ∀ w n, decode w = .ok (.buildCmd n) → n ≤ 511

/-- PARSE N, case by case in the order of its checks (R105). Two points are the model's own and no words of R105: a
wrong RX[0] ends BAD_MARKER even where RX[1] was never written (log 6, a choice), and which of several unwritten bytes
the fault names (log 7, deduced). That an N past its field, above 511, also ends BAD_RANGE is a choice too (log 13). -/
def Obligations.ParseChecksTheDatagram : Prop :=
  (∀ (s : State) (n : Nat), n > 261 → exec (.parse n) s =
    .next { s with status := { s.status with result := .badRange, err := true } }) ∧
  (∀ (s : State) (n : Nat), n < 4 → exec (.parse n) s =
    .next { s with rxPlen := 0, rxKind := 0, rxCalc := 0, rxRecv := 0, status := { result := .truncated, err := true, crcMm := false, isQuery := false, rxOk := false } }) ∧
  (∀ (s : State) (n : Nat), 4 ≤ n → n ≤ 261 →
    (Memory.read s.rx 0 = none → exec (.parse n) s = .fault (.unwrittenByte .rx 0)) ∧
    (Memory.read s.rx 0 = some (w16 s.cfg.order s.cfg.marker).1 → Memory.read s.rx 1 = none →
      exec (.parse n) s = .fault (.unwrittenByte .rx 1)) ∧
    (∀ b, (Memory.read s.rx 0 = some b ∧ b ≠ (w16 s.cfg.order s.cfg.marker).1) ∨
        (Memory.read s.rx 0 = some (w16 s.cfg.order s.cfg.marker).1 ∧ Memory.read s.rx 1 = some b ∧
          b ≠ (w16 s.cfg.order s.cfg.marker).2) →
      exec (.parse n) s = .next { s with rxPlen := 0, rxKind := 0, rxCalc := 0, rxRecv := 0, status := { result := .badMarker, err := true, crcMm := false, isQuery := false, rxOk := false } })) ∧
  (∀ (s : State) (n : Nat), 4 ≤ n → n ≤ 261 → Memory.read s.rx 0 = some (w16 s.cfg.order s.cfg.marker).1 →
    Memory.read s.rx 1 = some (w16 s.cfg.order s.cfg.marker).2 →
    (Memory.read s.rx 2 = none → exec (.parse n) s = .fault (.unwrittenByte .rx 2)) ∧
    ∀ kind, Memory.read s.rx 2 = some kind →
      (Memory.read s.rx 3 = none → exec (.parse n) s = .fault (.unwrittenByte .rx 3)) ∧
      ∀ l, Memory.read s.rx 3 = some l →
        (n < 6 + l.toNat → exec (.parse n) s =
          .next { s with rxPlen := l, rxKind := kind, rxCalc := 0, rxRecv := 0, status := { result := .truncated, err := true, crcMm := false, isQuery := false, rxOk := false } }) ∧
        (6 + l.toNat ≤ n → ∀ k, k < 6 + l.toNat → Memory.read s.rx k = none →
          ∃ j, j < 6 + l.toNat ∧ Memory.read s.rx j = none ∧ exec (.parse n) s = .fault (.unwrittenByte .rx j)) ∧
        (6 + l.toNat ≤ n → ∀ (p : List Byte) (t0 t1 : Byte), p.length = l.toNat →
          Holds s.rx 4 (p ++ [t0, t1]) →
          let r := ([(w16 s.cfg.order s.cfg.marker).1, (w16 s.cfg.order s.cfg.marker).2, kind, l] ++ p).foldl
            (upd s.cfg) s.cfg.init
          let want := fin s.cfg r
          let got := r16 s.cfg.order t0 t1
          exec (.parse n) s = .next { s with
            rxPlen := l, rxKind := kind, rxCalc := want, rxRecv := got, crc := r,
            status :=
              if want ≠ got ∧ s.crcEnforce = true then
                { result := .crcMismatch, err := true, crcMm := true,
                  isQuery := decide (l = 4 ∧ p = s.cfg.qtag.toList), rxOk := false }
              else
                { result := .ok, err := s.status.err, crcMm := decide (want ≠ got),
                  isQuery := decide (l = 4 ∧ p = s.cfg.qtag.toList), rxOk := true } })) ∧
  ∀ w n, decode w = .ok (.parse n) ↔ w &&& 0xFFFFFE00#32 = 0x20000000#32 ∧ n = (w &&& 0x1FF#32).toNat

/-- IS_QUERY is 1 exactly when PARSE reached its checksum step with L == 4 and the payload P_QTAG, matching checksum or
not; a command frame of that payload has the query frame's bytes (R107). -/
def Obligations.QueryFlagMeansTagPayload : Prop :=
  (∀ (s t : State) (n : Nat), n ≤ 261 → exec (.parse n) s = .next t →
    (t.status.isQuery = true ↔
      (t.status.result = .ok ∨ t.status.result = .crcMismatch) ∧ Memory.read s.rx 3 = some 4#8 ∧
        Memory.read s.rx 4 = some s.cfg.qtag.b0 ∧ Memory.read s.rx 5 = some s.cfg.qtag.b1 ∧
        Memory.read s.rx 6 = some s.cfg.qtag.b2 ∧ Memory.read s.rx 7 = some s.cfg.qtag.b3)) ∧
  (∀ s : State, Holds s.tx 4 s.cfg.qtag.toList → ∃ t u, exec (.buildCmd 4) s = .next t ∧
    exec .buildQuery s = .next u ∧ ∀ a, Memory.read t.tx a = Memory.read u.tx a)

/-- The checksum policy: past the length checks RX_CALC holds the expected and RX_RECV the received checksum, CRC_MM says
whether they differ; a mismatch fails when CRC_ENFORCE is 1 and is accepted when it is 0 (R108). -/
def Obligations.ChecksumPolicyFollowsEnforce : Prop :=
  ∀ (s t : State) (n : Nat), n ≤ 261 → exec (.parse n) s = .next t →
    t.status.result = .ok ∨ t.status.result = .crcMismatch →
    (∀ (l : Byte) (bs : List Byte) (t0 t1 : Byte), Memory.read s.rx 3 = some l → bs.length = 4 + l.toNat →
      Holds s.rx 0 (bs ++ [t0, t1]) → t.rxCalc = checksum s.cfg bs ∧ t.rxRecv = r16 s.cfg.order t0 t1) ∧
    (t.status.crcMm = true ↔ t.rxCalc ≠ t.rxRecv) ∧
    (t.status.crcMm = true → s.crcEnforce = true → t.status.result = .crcMismatch ∧ t.status.rxOk = false) ∧
    (t.status.crcMm = true → s.crcEnforce = false → t.status.result = .ok ∧ t.status.rxOk = true) ∧
    (t.status.crcMm = false → t.status.result = .ok ∧ t.status.rxOk = true)

/-- Bytes after the trailer are ignored: PARSE answers the same for every length from 6 + L on and for any contents
past the trailer (R109). -/
def Obligations.TrailingBytesAreIgnored : Prop :=
  ∀ (s : State) (n : Nat) (l : Byte), Memory.read s.rx 3 = some l → 6 + l.toNat ≤ n → n ≤ 261 →
    exec (.parse n) s = exec (.parse (6 + l.toNat)) s ∧
    ∀ (m : Memory) (t : State), (∀ k, k < 6 + l.toNat → Memory.read m k = Memory.read s.rx k) →
      exec (.parse n) s = .next t → exec (.parse n) { s with rx := m } = .next { t with rx := m }

/-- Round trip: what BUILD_CMD or BUILD_QUERY leaves in TX, copied to RX, is accepted by PARSE with the payload, kind
and checksum it was built with, for every parameter set, CTRL value and payload (R110). -/
def Obligations.BuiltFramesParseBack : Prop :=
  (∀ (s : State) (p : List Byte), p.length ≤ 254 → Holds s.tx 4 p →
    ∃ t, exec (.buildCmd p.length) s = .next t ∧
      ∀ (u : State) (m : Nat), u.cfg = t.cfg →
        (∀ k, k < 6 + p.length → Memory.read u.rx k = Memory.read t.tx k) → 6 + p.length ≤ m → m ≤ 261 →
        ∃ v, exec (.parse m) u = .next v ∧ v.status.result = .ok ∧ v.status.rxOk = true ∧
          v.status.crcMm = false ∧ v.rxPlen.toNat = p.length ∧ v.rxKind = s.cfg.kind ∧
          v.rxCalc = fin t.cfg t.crc ∧ v.rxRecv = fin t.cfg t.crc ∧ Holds v.rx 4 p) ∧
  (∀ s : State, ∃ t, exec .buildQuery s = .next t ∧
      ∀ (u : State) (m : Nat), u.cfg = t.cfg →
        (∀ k, k < 10 → Memory.read u.rx k = Memory.read t.tx k) → 10 ≤ m → m ≤ 261 →
        ∃ v, exec (.parse m) u = .next v ∧ v.status.result = .ok ∧ v.status.rxOk = true ∧
          v.status.crcMm = false ∧ v.status.isQuery = true ∧ v.rxPlen = 4 ∧ v.rxKind = s.cfg.kind ∧
          v.rxCalc = fin t.cfg t.crc ∧ v.rxRecv = fin t.cfg t.crc ∧ Holds v.rx 4 s.cfg.qtag.toList)

/-- The two framing errors of decode, and what they leave (R112). -/
def Obligations.FramingErrorsLeaveNoResult : Prop :=
  ∀ (s : State) (n : Nat) (b0 b1 : Byte),
    (n < 4 → ∃ t, exec (.parse n) s = .next t ∧ t.status.result = .truncated ∧ t.status.rxOk = false ∧
      t.status.crcMm = false ∧ t.status.isQuery = false ∧ t.rxPlen = 0 ∧ t.rxKind = 0 ∧ t.rxCalc = 0 ∧
      t.rxRecv = 0 ∧ t.crc = s.crc) ∧
    (4 ≤ n → n ≤ 261 → Memory.read s.rx 0 = some b0 → Memory.read s.rx 1 = some b1 →
      (b0, b1) ≠ w16 s.cfg.order s.cfg.marker →
      ∃ t, exec (.parse n) s = .next t ∧ t.status.result = .badMarker ∧ t.status.rxOk = false ∧
        t.status.crcMm = false ∧ t.status.isQuery = false ∧ t.rxPlen = 0 ∧ t.rxKind = 0 ∧ t.rxCalc = 0 ∧
        t.rxRecv = 0 ∧ t.crc = s.crc)

/-- PARSE's answer does not depend on what an earlier PARSE or command left in its result registers and flags, ERR
apart (R156). -/
def Obligations.ParseForgetsEarlierResults : Prop :=
  ∀ (s : State) (n : Nat) (plen kind : Byte) (want got : Half) (r : Result) (mm q ok : Bool), n ≤ 261 →
    exec (.parse n) { s with rxPlen := plen, rxKind := kind, rxCalc := want, rxRecv := got,
                             status := { result := r, err := s.status.err, crcMm := mm, isQuery := q, rxOk := ok } } =
      exec (.parse n) s

/-! ### The whole machine -/

/-- What each command leaves alone: CTRL, RX, the configuration and the host's side for all; TX byte by byte, TX_LEN,
CRC.VALUE, PARSE's registers and flags, and ERR for all but the commands whose rules write them (R31, R33 to R39). Terms
that no word decodes to are covered too (log 13). -/
def Obligations.CommandsChangeOnlyTheirOwnState : Prop :=
  ∀ (i : Instr) (s t : State), exec i s = .next t →
    t.crcEnforce = s.crcEnforce ∧ t.rx = s.rx ∧ t.cfg = s.cfg ∧ t.pending = s.pending ∧ t.rdata = s.rdata ∧
    ((∀ n, i ≠ .buildCmd n) → i ≠ .buildQuery → t.tx = s.tx ∧ t.txLen = s.txLen) ∧
    (∀ n, i = .buildCmd n → ∀ a, 4 ≤ a → a ≠ hdr + n → a ≠ hdr + n + 1 →
      Memory.read t.tx a = Memory.read s.tx a) ∧
    (i = .buildQuery → ∀ a, 10 ≤ a → Memory.read t.tx a = Memory.read s.tx a) ∧
    (i = .nop ∨ i = .clrErr → t.crc = s.crc) ∧
    ((∀ n, i ≠ .parse n) → t.rxPlen = s.rxPlen ∧ t.rxKind = s.rxKind ∧ t.rxCalc = s.rxCalc ∧ t.rxRecv = s.rxRecv ∧
      t.status.crcMm = s.status.crcMm ∧ t.status.isQuery = s.status.isQuery ∧ t.status.rxOk = s.status.rxOk) ∧
    (i ≠ .clrErr → t.status.result = .ok → t.status.err = s.status.err)

/-- Over any step, PARSE's result registers and flags change only by a reset or by a CMD write that decodes to PARSE
(R27 to R29, R34 to R37). -/
def Obligations.OnlyParseOrResetWritesReceiveResults : Prop :=
  ∀ s t : State, step s = .next t →
    t.status.crcMm ≠ s.status.crcMm ∨ t.status.isQuery ≠ s.status.isQuery ∨ t.status.rxOk ≠ s.status.rxOk ∨
      t.rxPlen ≠ s.rxPlen ∨ t.rxKind ≠ s.rxKind ∨ t.rxCalc ≠ s.rxCalc ∨ t.rxRecv ≠ s.rxRecv →
    ∃ rest, (∃ cut, s.pending = .reset cut :: rest) ∨
      ∃ w n, s.pending = .access ⟨s.cfg.base, 4, .write w⟩ :: rest ∧ decode w = .ok (.parse n)

/-- ERR is set by every command that ends with another result than OK, and once set is cleared by nothing but CLR_ERR
and reset (R26). -/
def Obligations.ErrIsSticky : Prop :=
  (∀ (w : Word) (s t : State), runCommand w s = .next t → t.status.result ≠ .ok → t.status.err = true) ∧
  (∀ s t : State, step s = .next t → s.status.err = true → t.status.err = false →
    ∃ rest, (∃ cut, s.pending = .reset cut :: rest) ∨
      ∃ w, s.pending = .access ⟨s.cfg.base, 4, .write w⟩ :: rest ∧ decode w = .ok .clrErr) ∧
  (∀ s : State, ∃ t, exec .clrErr s = .next t ∧ t.status.err = false) ∧
  ∀ (s : State) (cut : Option Access) (rest : List BusEvent), s.pending = .reset cut :: rest →
    ∃ t, step s = .next t ∧ t.status.err = false

/-- ILLEGAL, BAD_RANGE and TOO_LARGE change RESULT and ERR and nothing else (R132). -/
def Obligations.OperandErrorsChangeStatusOnly : Prop :=
  ∀ (w : Word) (s t : State), runCommand w s = .next t →
    t.status.result = .illegal ∨ t.status.result = .badRange ∨ t.status.result = .tooLarge →
    t = { s with status := { s.status with result := t.status.result, err := true } }

/-- A command that has no next state has read a byte of TX or RX that was never written, and its fault names that byte
(R40; which of several it names: log 7; terms that no word decodes to are covered too: log 13). -/
def Obligations.CommandsStopOnlyOnUnwrittenBytes : Prop :=
  ∀ (i : Instr) (s : State), (∃ t, exec i s = .next t) ∨
    ∃ b k, exec i s = .fault (.unwrittenByte b k) ∧ k < 261 ∧ Memory.read (s.buffer b) k = none

/-- With both buffers written, every command completes: NOP, CRC_INIT, CRC_BYTE, CRC_TX, CRC_RX, CLR_ERR, BUILD_CMD,
BUILD_QUERY and PARSE, on all operands (R160, R153), those that no word decodes to included (log 13). -/
def Obligations.EveryCommandCompletesOnWrittenBuffers : Prop :=
  ∀ (i : Instr) (s : State), FullyWritten s → ∃ t, exec i s = .next t

/-- No step changes the configuration (R6), which the model carries in State (log 1). -/
def Obligations.ConfigurationIsFixed : Prop :=
  ∀ s t : State, step s = .next t → t.cfg = s.cfg

/-- Every step keeps the invariant; the buffers' canonical form in it is the model's own (log 5). -/
def Obligations.EveryStepKeepsTheInvariant : Prop :=
  ∀ s t : State, s.Inv → step s = .next t → t.Inv

/-- The invariant holds at reset, where P_BASE = 0 is the model's own choice (log 2). -/
def Obligations.ResetMeetsTheInvariant : Prop := State.reset.Inv
end

