-- ==== Sys2Proof/Laws/State.lean ====
section
/-! SUPPORT. What each updater of State does to each field, and what reset leaves in each. -/

namespace Sys2Proof.Machine

@[simp] theorem State.setStatus_cfg (s : State) (v : Status) : (s.setStatus v).cfg = s.cfg := rfl
@[simp] theorem State.setStatus_status (s : State) (v : Status) : (s.setStatus v).status = v := rfl
@[simp] theorem State.setStatus_crcEnforce (s : State) (v : Status) : (s.setStatus v).crcEnforce = s.crcEnforce := rfl
@[simp] theorem State.setStatus_crc (s : State) (v : Status) : (s.setStatus v).crc = s.crc := rfl
@[simp] theorem State.setStatus_txLen (s : State) (v : Status) : (s.setStatus v).txLen = s.txLen := rfl
@[simp] theorem State.setStatus_rxPlen (s : State) (v : Status) : (s.setStatus v).rxPlen = s.rxPlen := rfl
@[simp] theorem State.setStatus_rxKind (s : State) (v : Status) : (s.setStatus v).rxKind = s.rxKind := rfl
@[simp] theorem State.setStatus_rxCalc (s : State) (v : Status) : (s.setStatus v).rxCalc = s.rxCalc := rfl
@[simp] theorem State.setStatus_rxRecv (s : State) (v : Status) : (s.setStatus v).rxRecv = s.rxRecv := rfl
@[simp] theorem State.setStatus_tx (s : State) (v : Status) : (s.setStatus v).tx = s.tx := rfl
@[simp] theorem State.setStatus_rx (s : State) (v : Status) : (s.setStatus v).rx = s.rx := rfl
@[simp] theorem State.setStatus_pending (s : State) (v : Status) : (s.setStatus v).pending = s.pending := rfl
@[simp] theorem State.setStatus_rdata (s : State) (v : Status) : (s.setStatus v).rdata = s.rdata := rfl

@[simp] theorem State.setCrcEnforce_cfg (s : State) (v : Bool) : (s.setCrcEnforce v).cfg = s.cfg := rfl
@[simp] theorem State.setCrcEnforce_status (s : State) (v : Bool) : (s.setCrcEnforce v).status = s.status := rfl
@[simp] theorem State.setCrcEnforce_crcEnforce (s : State) (v : Bool) : (s.setCrcEnforce v).crcEnforce = v := rfl
@[simp] theorem State.setCrcEnforce_crc (s : State) (v : Bool) : (s.setCrcEnforce v).crc = s.crc := rfl
@[simp] theorem State.setCrcEnforce_txLen (s : State) (v : Bool) : (s.setCrcEnforce v).txLen = s.txLen := rfl
@[simp] theorem State.setCrcEnforce_rxPlen (s : State) (v : Bool) : (s.setCrcEnforce v).rxPlen = s.rxPlen := rfl
@[simp] theorem State.setCrcEnforce_rxKind (s : State) (v : Bool) : (s.setCrcEnforce v).rxKind = s.rxKind := rfl
@[simp] theorem State.setCrcEnforce_rxCalc (s : State) (v : Bool) : (s.setCrcEnforce v).rxCalc = s.rxCalc := rfl
@[simp] theorem State.setCrcEnforce_rxRecv (s : State) (v : Bool) : (s.setCrcEnforce v).rxRecv = s.rxRecv := rfl
@[simp] theorem State.setCrcEnforce_tx (s : State) (v : Bool) : (s.setCrcEnforce v).tx = s.tx := rfl
@[simp] theorem State.setCrcEnforce_rx (s : State) (v : Bool) : (s.setCrcEnforce v).rx = s.rx := rfl
@[simp] theorem State.setCrcEnforce_pending (s : State) (v : Bool) : (s.setCrcEnforce v).pending = s.pending := rfl
@[simp] theorem State.setCrcEnforce_rdata (s : State) (v : Bool) : (s.setCrcEnforce v).rdata = s.rdata := rfl

@[simp] theorem State.setCrc_cfg (s : State) (v : Half) : (s.setCrc v).cfg = s.cfg := rfl
@[simp] theorem State.setCrc_status (s : State) (v : Half) : (s.setCrc v).status = s.status := rfl
@[simp] theorem State.setCrc_crcEnforce (s : State) (v : Half) : (s.setCrc v).crcEnforce = s.crcEnforce := rfl
@[simp] theorem State.setCrc_crc (s : State) (v : Half) : (s.setCrc v).crc = v := rfl
@[simp] theorem State.setCrc_txLen (s : State) (v : Half) : (s.setCrc v).txLen = s.txLen := rfl
@[simp] theorem State.setCrc_rxPlen (s : State) (v : Half) : (s.setCrc v).rxPlen = s.rxPlen := rfl
@[simp] theorem State.setCrc_rxKind (s : State) (v : Half) : (s.setCrc v).rxKind = s.rxKind := rfl
@[simp] theorem State.setCrc_rxCalc (s : State) (v : Half) : (s.setCrc v).rxCalc = s.rxCalc := rfl
@[simp] theorem State.setCrc_rxRecv (s : State) (v : Half) : (s.setCrc v).rxRecv = s.rxRecv := rfl
@[simp] theorem State.setCrc_tx (s : State) (v : Half) : (s.setCrc v).tx = s.tx := rfl
@[simp] theorem State.setCrc_rx (s : State) (v : Half) : (s.setCrc v).rx = s.rx := rfl
@[simp] theorem State.setCrc_pending (s : State) (v : Half) : (s.setCrc v).pending = s.pending := rfl
@[simp] theorem State.setCrc_rdata (s : State) (v : Half) : (s.setCrc v).rdata = s.rdata := rfl

@[simp] theorem State.setTxLen_cfg (s : State) (v : BitVec 9) : (s.setTxLen v).cfg = s.cfg := rfl
@[simp] theorem State.setTxLen_status (s : State) (v : BitVec 9) : (s.setTxLen v).status = s.status := rfl
@[simp] theorem State.setTxLen_crcEnforce (s : State) (v : BitVec 9) : (s.setTxLen v).crcEnforce = s.crcEnforce := rfl
@[simp] theorem State.setTxLen_crc (s : State) (v : BitVec 9) : (s.setTxLen v).crc = s.crc := rfl
@[simp] theorem State.setTxLen_txLen (s : State) (v : BitVec 9) : (s.setTxLen v).txLen = v := rfl
@[simp] theorem State.setTxLen_rxPlen (s : State) (v : BitVec 9) : (s.setTxLen v).rxPlen = s.rxPlen := rfl
@[simp] theorem State.setTxLen_rxKind (s : State) (v : BitVec 9) : (s.setTxLen v).rxKind = s.rxKind := rfl
@[simp] theorem State.setTxLen_rxCalc (s : State) (v : BitVec 9) : (s.setTxLen v).rxCalc = s.rxCalc := rfl
@[simp] theorem State.setTxLen_rxRecv (s : State) (v : BitVec 9) : (s.setTxLen v).rxRecv = s.rxRecv := rfl
@[simp] theorem State.setTxLen_tx (s : State) (v : BitVec 9) : (s.setTxLen v).tx = s.tx := rfl
@[simp] theorem State.setTxLen_rx (s : State) (v : BitVec 9) : (s.setTxLen v).rx = s.rx := rfl
@[simp] theorem State.setTxLen_pending (s : State) (v : BitVec 9) : (s.setTxLen v).pending = s.pending := rfl
@[simp] theorem State.setTxLen_rdata (s : State) (v : BitVec 9) : (s.setTxLen v).rdata = s.rdata := rfl

@[simp] theorem State.setRxHeader_cfg (s : State) (k p : Byte) : (s.setRxHeader k p).cfg = s.cfg := rfl
@[simp] theorem State.setRxHeader_status (s : State) (k p : Byte) : (s.setRxHeader k p).status = s.status := rfl
@[simp] theorem State.setRxHeader_crcEnforce (s : State) (k p : Byte) : (s.setRxHeader k p).crcEnforce = s.crcEnforce := rfl
@[simp] theorem State.setRxHeader_crc (s : State) (k p : Byte) : (s.setRxHeader k p).crc = s.crc := rfl
@[simp] theorem State.setRxHeader_txLen (s : State) (k p : Byte) : (s.setRxHeader k p).txLen = s.txLen := rfl
@[simp] theorem State.setRxHeader_rxPlen (s : State) (k p : Byte) : (s.setRxHeader k p).rxPlen = p := rfl
@[simp] theorem State.setRxHeader_rxKind (s : State) (k p : Byte) : (s.setRxHeader k p).rxKind = k := rfl
@[simp] theorem State.setRxHeader_rxCalc (s : State) (k p : Byte) : (s.setRxHeader k p).rxCalc = s.rxCalc := rfl
@[simp] theorem State.setRxHeader_rxRecv (s : State) (k p : Byte) : (s.setRxHeader k p).rxRecv = s.rxRecv := rfl
@[simp] theorem State.setRxHeader_tx (s : State) (k p : Byte) : (s.setRxHeader k p).tx = s.tx := rfl
@[simp] theorem State.setRxHeader_rx (s : State) (k p : Byte) : (s.setRxHeader k p).rx = s.rx := rfl
@[simp] theorem State.setRxHeader_pending (s : State) (k p : Byte) : (s.setRxHeader k p).pending = s.pending := rfl
@[simp] theorem State.setRxHeader_rdata (s : State) (k p : Byte) : (s.setRxHeader k p).rdata = s.rdata := rfl

@[simp] theorem State.setRxSums_cfg (s : State) (a b : Half) : (s.setRxSums a b).cfg = s.cfg := rfl
@[simp] theorem State.setRxSums_status (s : State) (a b : Half) : (s.setRxSums a b).status = s.status := rfl
@[simp] theorem State.setRxSums_crcEnforce (s : State) (a b : Half) : (s.setRxSums a b).crcEnforce = s.crcEnforce := rfl
@[simp] theorem State.setRxSums_crc (s : State) (a b : Half) : (s.setRxSums a b).crc = s.crc := rfl
@[simp] theorem State.setRxSums_txLen (s : State) (a b : Half) : (s.setRxSums a b).txLen = s.txLen := rfl
@[simp] theorem State.setRxSums_rxPlen (s : State) (a b : Half) : (s.setRxSums a b).rxPlen = s.rxPlen := rfl
@[simp] theorem State.setRxSums_rxKind (s : State) (a b : Half) : (s.setRxSums a b).rxKind = s.rxKind := rfl
@[simp] theorem State.setRxSums_rxCalc (s : State) (a b : Half) : (s.setRxSums a b).rxCalc = a := rfl
@[simp] theorem State.setRxSums_rxRecv (s : State) (a b : Half) : (s.setRxSums a b).rxRecv = b := rfl
@[simp] theorem State.setRxSums_tx (s : State) (a b : Half) : (s.setRxSums a b).tx = s.tx := rfl
@[simp] theorem State.setRxSums_rx (s : State) (a b : Half) : (s.setRxSums a b).rx = s.rx := rfl
@[simp] theorem State.setRxSums_pending (s : State) (a b : Half) : (s.setRxSums a b).pending = s.pending := rfl
@[simp] theorem State.setRxSums_rdata (s : State) (a b : Half) : (s.setRxSums a b).rdata = s.rdata := rfl

@[simp] theorem State.setTx_cfg (s : State) (v : Memory) : (s.setTx v).cfg = s.cfg := rfl
@[simp] theorem State.setTx_status (s : State) (v : Memory) : (s.setTx v).status = s.status := rfl
@[simp] theorem State.setTx_crcEnforce (s : State) (v : Memory) : (s.setTx v).crcEnforce = s.crcEnforce := rfl
@[simp] theorem State.setTx_crc (s : State) (v : Memory) : (s.setTx v).crc = s.crc := rfl
@[simp] theorem State.setTx_txLen (s : State) (v : Memory) : (s.setTx v).txLen = s.txLen := rfl
@[simp] theorem State.setTx_rxPlen (s : State) (v : Memory) : (s.setTx v).rxPlen = s.rxPlen := rfl
@[simp] theorem State.setTx_rxKind (s : State) (v : Memory) : (s.setTx v).rxKind = s.rxKind := rfl
@[simp] theorem State.setTx_rxCalc (s : State) (v : Memory) : (s.setTx v).rxCalc = s.rxCalc := rfl
@[simp] theorem State.setTx_rxRecv (s : State) (v : Memory) : (s.setTx v).rxRecv = s.rxRecv := rfl
@[simp] theorem State.setTx_tx (s : State) (v : Memory) : (s.setTx v).tx = v := rfl
@[simp] theorem State.setTx_rx (s : State) (v : Memory) : (s.setTx v).rx = s.rx := rfl
@[simp] theorem State.setTx_pending (s : State) (v : Memory) : (s.setTx v).pending = s.pending := rfl
@[simp] theorem State.setTx_rdata (s : State) (v : Memory) : (s.setTx v).rdata = s.rdata := rfl

@[simp] theorem State.setRx_cfg (s : State) (v : Memory) : (s.setRx v).cfg = s.cfg := rfl
@[simp] theorem State.setRx_status (s : State) (v : Memory) : (s.setRx v).status = s.status := rfl
@[simp] theorem State.setRx_crcEnforce (s : State) (v : Memory) : (s.setRx v).crcEnforce = s.crcEnforce := rfl
@[simp] theorem State.setRx_crc (s : State) (v : Memory) : (s.setRx v).crc = s.crc := rfl
@[simp] theorem State.setRx_txLen (s : State) (v : Memory) : (s.setRx v).txLen = s.txLen := rfl
@[simp] theorem State.setRx_rxPlen (s : State) (v : Memory) : (s.setRx v).rxPlen = s.rxPlen := rfl
@[simp] theorem State.setRx_rxKind (s : State) (v : Memory) : (s.setRx v).rxKind = s.rxKind := rfl
@[simp] theorem State.setRx_rxCalc (s : State) (v : Memory) : (s.setRx v).rxCalc = s.rxCalc := rfl
@[simp] theorem State.setRx_rxRecv (s : State) (v : Memory) : (s.setRx v).rxRecv = s.rxRecv := rfl
@[simp] theorem State.setRx_tx (s : State) (v : Memory) : (s.setRx v).tx = s.tx := rfl
@[simp] theorem State.setRx_rx (s : State) (v : Memory) : (s.setRx v).rx = v := rfl
@[simp] theorem State.setRx_pending (s : State) (v : Memory) : (s.setRx v).pending = s.pending := rfl
@[simp] theorem State.setRx_rdata (s : State) (v : Memory) : (s.setRx v).rdata = s.rdata := rfl

@[simp] theorem State.setPending_cfg (s : State) (v : List BusEvent) : (s.setPending v).cfg = s.cfg := rfl
@[simp] theorem State.setPending_status (s : State) (v : List BusEvent) : (s.setPending v).status = s.status := rfl
@[simp] theorem State.setPending_crcEnforce (s : State) (v : List BusEvent) : (s.setPending v).crcEnforce = s.crcEnforce := rfl
@[simp] theorem State.setPending_crc (s : State) (v : List BusEvent) : (s.setPending v).crc = s.crc := rfl
@[simp] theorem State.setPending_txLen (s : State) (v : List BusEvent) : (s.setPending v).txLen = s.txLen := rfl
@[simp] theorem State.setPending_rxPlen (s : State) (v : List BusEvent) : (s.setPending v).rxPlen = s.rxPlen := rfl
@[simp] theorem State.setPending_rxKind (s : State) (v : List BusEvent) : (s.setPending v).rxKind = s.rxKind := rfl
@[simp] theorem State.setPending_rxCalc (s : State) (v : List BusEvent) : (s.setPending v).rxCalc = s.rxCalc := rfl
@[simp] theorem State.setPending_rxRecv (s : State) (v : List BusEvent) : (s.setPending v).rxRecv = s.rxRecv := rfl
@[simp] theorem State.setPending_tx (s : State) (v : List BusEvent) : (s.setPending v).tx = s.tx := rfl
@[simp] theorem State.setPending_rx (s : State) (v : List BusEvent) : (s.setPending v).rx = s.rx := rfl
@[simp] theorem State.setPending_pending (s : State) (v : List BusEvent) : (s.setPending v).pending = v := rfl
@[simp] theorem State.setPending_rdata (s : State) (v : List BusEvent) : (s.setPending v).rdata = s.rdata := rfl

@[simp] theorem State.setRdata_cfg (s : State) (v : Option Word) : (s.setRdata v).cfg = s.cfg := rfl
@[simp] theorem State.setRdata_status (s : State) (v : Option Word) : (s.setRdata v).status = s.status := rfl
@[simp] theorem State.setRdata_crcEnforce (s : State) (v : Option Word) : (s.setRdata v).crcEnforce = s.crcEnforce := rfl
@[simp] theorem State.setRdata_crc (s : State) (v : Option Word) : (s.setRdata v).crc = s.crc := rfl
@[simp] theorem State.setRdata_txLen (s : State) (v : Option Word) : (s.setRdata v).txLen = s.txLen := rfl
@[simp] theorem State.setRdata_rxPlen (s : State) (v : Option Word) : (s.setRdata v).rxPlen = s.rxPlen := rfl
@[simp] theorem State.setRdata_rxKind (s : State) (v : Option Word) : (s.setRdata v).rxKind = s.rxKind := rfl
@[simp] theorem State.setRdata_rxCalc (s : State) (v : Option Word) : (s.setRdata v).rxCalc = s.rxCalc := rfl
@[simp] theorem State.setRdata_rxRecv (s : State) (v : Option Word) : (s.setRdata v).rxRecv = s.rxRecv := rfl
@[simp] theorem State.setRdata_tx (s : State) (v : Option Word) : (s.setRdata v).tx = s.tx := rfl
@[simp] theorem State.setRdata_rx (s : State) (v : Option Word) : (s.setRdata v).rx = s.rx := rfl
@[simp] theorem State.setRdata_pending (s : State) (v : Option Word) : (s.setRdata v).pending = s.pending := rfl
@[simp] theorem State.setRdata_rdata (s : State) (v : Option Word) : (s.setRdata v).rdata = v := rfl

@[simp] theorem State.resetOf_cfg (c : Config) (l : List BusEvent) : (State.resetOf c l).cfg = c := rfl
@[simp] theorem State.resetOf_status (c : Config) (l : List BusEvent) : (State.resetOf c l).status = Status.reset := rfl
@[simp] theorem State.resetOf_crcEnforce (c : Config) (l : List BusEvent) : (State.resetOf c l).crcEnforce = true := rfl
@[simp] theorem State.resetOf_crc (c : Config) (l : List BusEvent) : (State.resetOf c l).crc = c.init := rfl
@[simp] theorem State.resetOf_txLen (c : Config) (l : List BusEvent) : (State.resetOf c l).txLen = 0 := rfl
@[simp] theorem State.resetOf_rxPlen (c : Config) (l : List BusEvent) : (State.resetOf c l).rxPlen = 0 := rfl
@[simp] theorem State.resetOf_rxKind (c : Config) (l : List BusEvent) : (State.resetOf c l).rxKind = 0 := rfl
@[simp] theorem State.resetOf_rxCalc (c : Config) (l : List BusEvent) : (State.resetOf c l).rxCalc = 0 := rfl
@[simp] theorem State.resetOf_rxRecv (c : Config) (l : List BusEvent) : (State.resetOf c l).rxRecv = 0 := rfl
@[simp] theorem State.resetOf_tx (c : Config) (l : List BusEvent) : (State.resetOf c l).tx = [] := rfl
@[simp] theorem State.resetOf_rx (c : Config) (l : List BusEvent) : (State.resetOf c l).rx = [] := rfl
@[simp] theorem State.resetOf_pending (c : Config) (l : List BusEvent) : (State.resetOf c l).pending = l := rfl
@[simp] theorem State.resetOf_rdata (c : Config) (l : List BusEvent) : (State.resetOf c l).rdata = none := rfl

end Sys2Proof.Machine
end

