-- ==== Sys2Proof/Laws/Memory.lean ====
section
/-! SUPPORT. The laws of the frame buffers: read after write, the canonical form and that every operation keeps it,
and what reading a range answers. -/

namespace Sys2Proof.Machine

@[simp] theorem Memory.read_nil (i : Nat) : Memory.read [] i = none := rfl

theorem Memory.read_cons (i j : Nat) (b : Byte) (m : Memory) :
    Memory.read ((j, b) :: m) i = if i = j then some b else Memory.read m i := rfl

/-- A read after a write gives the written byte at its index and what was there before everywhere else. -/
theorem Memory.read_write (m : Memory) (i j : Nat) (b : Byte) :
    Memory.read (Memory.write m i b) j = if j = i then some b else Memory.read m j := by
  induction m with
  | nil => simp [Memory.write, Memory.read_cons]
  | cons c rest ih =>
    obtain ⟨k, x⟩ := c
    unfold Memory.write
    split
    · simp [Memory.read_cons]
    · split
      · next h => subst h; simp only [Memory.read_cons]; split <;> rfl
      · next h1 h2 => rw [Memory.read_cons, Memory.read_cons, ih]; split <;> split <;> simp_all

@[simp] theorem Memory.read_write_same (m : Memory) (i : Nat) (b : Byte) :
    Memory.read (Memory.write m i b) i = some b := by simp [Memory.read_write]

theorem Memory.read_write_ne (m : Memory) {i j : Nat} (b : Byte) (h : j ≠ i) :
    Memory.read (Memory.write m i b) j = Memory.read m j := by simp [Memory.read_write, h]

/-- Writing the same byte twice is writing it once. -/
@[simp] theorem Memory.write_write_same (m : Memory) (i : Nat) (b : Byte) :
    Memory.write (Memory.write m i b) i b = Memory.write m i b := by
  induction m with
  | nil => simp [Memory.write]
  | cons c rest ih =>
    obtain ⟨k, x⟩ := c
    by_cases h1 : i < k
    · simp [Memory.write, h1]
    · by_cases h2 : i = k
      · simp [Memory.write, h2]
      · simp [Memory.write, h1, h2, ih]

/-- What reads as written after writing consecutive bytes. -/
theorem Memory.read_writeAll (m : Memory) (i j : Nat) (bs : List Byte) :
    Memory.read (Memory.writeAll m i bs) j =
      if i ≤ j ∧ j < i + bs.length then bs[j - i]? else Memory.read m j := by
  induction bs generalizing m i with
  | nil => simp [Memory.writeAll]
  | cons b rest ih =>
    rw [Memory.writeAll, ih, Memory.read_write]
    by_cases hj : j = i
    · subst hj; simp
    · by_cases hin : i + 1 ≤ j ∧ j < i + 1 + rest.length
      · have h2 : j - i = (j - (i + 1)) + 1 := by omega
        rw [if_pos hin, if_pos (by simp; omega), h2, List.getElem?_cons_succ]
      · rw [if_neg hin, if_neg hj, if_neg (by simp; omega)]

/-- The canonical form, as a proposition. -/
theorem Memory.wf_iff (m : Memory) :
    Memory.wf m = true ↔ (m.map Prod.fst).Pairwise (· < ·) ∧ ∀ c ∈ m, c.1 < bufSize := by
  simp [Memory.wf]

theorem Memory.wf_nil : Memory.wf [] = true := by decide

theorem Memory.wf_cons (j : Nat) (x : Byte) (m : Memory) :
    Memory.wf ((j, x) :: m) = true ↔ j < bufSize ∧ (∀ c ∈ m, j < c.1) ∧ Memory.wf m = true := by
  rw [Memory.wf_iff, Memory.wf_iff]
  simp only [List.map_cons, List.pairwise_cons, List.mem_cons, forall_eq_or_imp, List.mem_map,
    forall_exists_index, and_imp, forall_apply_eq_imp_iff₂]
  tauto

/-- Every index listed after a write was listed before, or is the one written. -/
theorem Memory.mem_write {m : Memory} {i : Nat} {b : Byte} {c : Host.Cell} (h : c ∈ Memory.write m i b) :
    c = (i, b) ∨ c ∈ m := by
  induction m with
  | nil => simpa [Memory.write] using h
  | cons d rest ih =>
    obtain ⟨k, x⟩ := d
    unfold Memory.write at h
    split at h
    · simpa using h
    · split at h
      · rcases List.mem_cons.mp h with h | h
        · exact .inl h
        · exact .inr (List.mem_cons_of_mem _ h)
      · rcases List.mem_cons.mp h with h | h
        · exact .inr (h ▸ List.mem_cons_self ..)
        · exact (ih h).imp id (List.mem_cons_of_mem _)

/-- A write inside the buffer keeps the canonical form. -/
theorem Memory.write_wf {m : Memory} {i : Nat} (b : Byte) (hm : Memory.wf m = true) (hi : i < bufSize) :
    Memory.wf (Memory.write m i b) = true := by
  induction m with
  | nil => simpa [Memory.write, Memory.wf_cons, Memory.wf_nil] using hi
  | cons d rest ih =>
    obtain ⟨k, x⟩ := d
    have hd := (Memory.wf_cons ..).mp hm
    unfold Memory.write
    split
    · next hlt =>
      refine (Memory.wf_cons ..).mpr ⟨hi, ?_, hm⟩
      intro c hc
      rcases List.mem_cons.mp hc with rfl | hc
      · exact hlt
      · exact Nat.lt_trans hlt (hd.2.1 c hc)
    · split
      · next h => exact (Memory.wf_cons ..).mpr ⟨hi, h ▸ hd.2.1, hd.2.2⟩
      · next h1 h2 =>
        refine (Memory.wf_cons ..).mpr ⟨hd.1, ?_, ih hd.2.2⟩
        intro c hc
        rcases Memory.mem_write hc with rfl | hc
        · show k < i; omega
        · exact hd.2.1 c hc

/-- Writing consecutive bytes inside the buffer keeps the canonical form. -/
theorem Memory.writeAll_wf {m : Memory} {i : Nat} {bs : List Byte} (hm : Memory.wf m = true)
    (h : i + bs.length ≤ bufSize) : Memory.wf (Memory.writeAll m i bs) = true := by
  induction bs generalizing m i with
  | nil => exact hm
  | cons b rest ih =>
    rw [List.length_cons] at h
    exact ih (Memory.write_wf b hm (by omega)) (by omega)

/-- A byte below every listed index is not written. -/
theorem Memory.read_none_of_lt {m : Memory} {i : Nat} (h : ∀ c ∈ m, i < c.1) : Memory.read m i = none := by
  induction m with
  | nil => rfl
  | cons d rest ih =>
    obtain ⟨k, x⟩ := d
    have hk : i < k := h (k, x) (List.mem_cons_self ..)
    rw [Memory.read_cons, if_neg (by omega), ih fun c hc => h c (List.mem_cons_of_mem _ hc)]

/-- Two buffers in canonical form that read alike are the same list. -/
theorem Memory.ext {m m' : Memory} (h : Memory.wf m = true) (h' : Memory.wf m' = true)
    (hr : ∀ i, Memory.read m i = Memory.read m' i) : m = m' := by
  induction m generalizing m' with
  | nil =>
    cases m' with
    | nil => rfl
    | cons d rest => have := hr d.1; simp [Memory.read] at this
  | cons d rest ih =>
    obtain ⟨k, x⟩ := d
    have hd := (Memory.wf_cons ..).mp h
    cases m' with
    | nil => have := hr k; simp [Memory.read] at this
    | cons d' rest' =>
      obtain ⟨k', x'⟩ := d'
      have hd' := (Memory.wf_cons ..).mp h'
      have hkk : k = k' := by
        rcases Nat.lt_trichotomy k k' with hlt | heq | hgt
        · have := hr k
          rw [Memory.read_cons, if_pos rfl, Memory.read_cons, if_neg (by omega),
            Memory.read_none_of_lt fun c hc => Nat.lt_trans hlt (hd'.2.1 c hc)] at this
          cases this
        · exact heq
        · have := hr k'
          rw [Memory.read_cons, if_neg (by omega), Memory.read_cons, if_pos rfl,
            Memory.read_none_of_lt fun c hc => Nat.lt_trans hgt (hd.2.1 c hc)] at this
          cases this
      subst hkk
      have hx := hr k
      simp only [Memory.read_cons, if_true, Option.some.injEq] at hx
      subst hx
      congr 1
      refine ih hd.2.2 hd'.2.2 fun i => ?_
      by_cases hi : i = k
      · subst hi
        rw [Memory.read_none_of_lt hd.2.1, Memory.read_none_of_lt hd'.2.1]
      · have := hr i
        rwa [Memory.read_cons, if_neg hi, Memory.read_cons, if_neg hi] at this

/-- A listed byte of a buffer in canonical form is one of its 261. -/
theorem Memory.read_lt {m : Memory} {i : Nat} {b : Byte} (h : Memory.wf m = true)
    (hr : Memory.read m i = some b) : i < bufSize := by
  induction m with
  | nil => simp at hr
  | cons d rest ih =>
    obtain ⟨k, x⟩ := d
    have hd := (Memory.wf_cons ..).mp h
    rw [Memory.read_cons] at hr
    split at hr
    · next e => subst e; exact hd.1
    · exact ih hd.2.2 hr

/-- Reading one byte answers it exactly when it is written. -/
theorem readByte_ok_iff (b : Buffer) (m : Memory) (i : Nat) (x : Byte) :
    readByte b m i = .ok x ↔ Memory.read m i = some x := by
  unfold readByte
  split <;> simp_all

/-- Reading one byte faults exactly when it is unwritten, and the fault names it. -/
theorem readByte_error_iff (b : Buffer) (m : Memory) (i : Nat) (f : Fault) :
    readByte b m i = .error f ↔ Memory.read m i = none ∧ f = .unwrittenByte b i := by
  unfold readByte
  cases Memory.read m i <;> simp [eq_comm]

@[simp] theorem Holds_nil (m : Memory) (i : Nat) : Holds m i [] := by
  intro k hk; simp at hk

theorem Holds_cons (m : Memory) (i : Nat) (b : Byte) (bs : List Byte) :
    Holds m i (b :: bs) ↔ Memory.read m i = some b ∧ Holds m (i + 1) bs := by
  constructor
  · intro h
    refine ⟨by simpa using h 0 (by simp), fun k hk => ?_⟩
    have := h (k + 1) (by simpa using hk)
    rwa [List.getElem?_cons_succ, show i + (k + 1) = i + 1 + k by omega] at this
  · rintro ⟨h0, h1⟩ k hk
    cases k with
    | zero => simpa using h0
    | succ k =>
      rw [List.getElem?_cons_succ, show i + (k + 1) = i + 1 + k by omega]
      exact h1 k (by simpa using hk)

theorem Holds_append (m : Memory) (i : Nat) (as bs : List Byte) :
    Holds m i (as ++ bs) ↔ Holds m i as ∧ Holds m (i + as.length) bs := by
  induction as generalizing i with
  | nil => simp
  | cons a as ih =>
    rw [List.cons_append, Holds_cons, Holds_cons, ih, List.length_cons, show i + 1 + as.length = i + (as.length + 1) by omega,
      and_assoc]

/-- Buffers that read alike over a range hold the same bytes there. -/
theorem Holds_congr {m m' : Memory} {i : Nat} {bs : List Byte}
    (h : ∀ k, k < bs.length → Memory.read m (i + k) = Memory.read m' (i + k)) : Holds m i bs ↔ Holds m' i bs := by
  constructor
  · intro hh k hk; rw [← h k hk]; exact hh k hk
  · intro hh k hk; rw [h k hk]; exact hh k hk

/-- What was just written is held. -/
theorem Holds_writeAll (m : Memory) (i : Nat) (bs : List Byte) : Holds (Memory.writeAll m i bs) i bs := by
  intro k hk
  rw [Memory.read_writeAll, if_pos (by omega)]
  congr 1; omega

/-- Bytes clear of the written range are held as before. -/
theorem Holds_writeAll_of_disjoint (m : Memory) (i j : Nat) (as bs : List Byte)
    (h : j + bs.length ≤ i ∨ i + as.length ≤ j) : Holds (Memory.writeAll m i as) j bs ↔ Holds m j bs := by
  apply Holds_congr
  intro k hk
  rw [Memory.read_writeAll, if_neg (by omega)]

/-- Reading a range answers exactly the bytes that stand there. -/
theorem readRange_ok_iff (b : Buffer) (m : Memory) (i n : Nat) (bs : List Byte) :
    readRange b m i n = .ok bs ↔ bs.length = n ∧ Holds m i bs := by
  induction n generalizing i bs with
  | zero =>
    rw [readRange]
    constructor
    · intro h; cases h; simp
    · rintro ⟨h, -⟩; rw [List.length_eq_zero_iff.mp h]
  | succ n ih =>
    rw [readRange]
    cases hb : readByte b m i with
    | error f =>
      rw [readByte_error_iff] at hb
      constructor
      · intro h; cases h
      · rintro ⟨hl, hh⟩
        cases bs with
        | nil => simp at hl
        | cons x xs => rw [Holds_cons, hb.1] at hh; cases hh.1
    | ok x =>
      rw [readByte_ok_iff] at hb
      cases hr : readRange b m (i + 1) n with
      | error f =>
        constructor
        · intro h; cases h
        · rintro ⟨hl, hh⟩
          cases bs with
          | nil => simp at hl
          | cons y ys =>
            have := (ih (i + 1) ys).mpr ⟨by simpa using hl, ((Holds_cons ..).mp hh).2⟩
            rw [hr] at this; cases this
      | ok xs =>
        have hx := (ih (i + 1) xs).mp hr
        constructor
        · intro h; cases h
          exact ⟨by simp [hx.1], (Holds_cons ..).mpr ⟨hb, hx.2⟩⟩
        · rintro ⟨hl, hh⟩
          cases bs with
          | nil => simp at hl
          | cons y ys =>
            have hc := (Holds_cons ..).mp hh
            have := (ih (i + 1) ys).mpr ⟨by simpa using hl, hc.2⟩
            rw [hr] at this; cases this
            have h2 := hc.1; rw [hb] at h2; cases h2; rfl

/-- Reading a range faults exactly at its first unwritten byte. -/
theorem readRange_error_iff (b : Buffer) (m : Memory) (i n : Nat) (f : Fault) :
    readRange b m i n = .error f ↔ ∃ k, k < n ∧ f = .unwrittenByte b (i + k) ∧ Memory.read m (i + k) = none ∧
      ∀ j, j < k → Memory.read m (i + j) ≠ none := by
  induction n generalizing i with
  | zero => simp [readRange]
  | succ n ih =>
    rw [readRange]
    cases hb : readByte b m i with
    | error g =>
      rw [readByte_error_iff] at hb
      constructor
      · intro h; cases h
        exact ⟨0, by omega, by simpa using hb.2, by simpa using hb.1, fun j hj => by omega⟩
      · rintro ⟨k, hk, rfl, hn, hall⟩
        cases k with
        | zero => simp only [hb.2, Nat.add_zero]
        | succ k => exact absurd (by simpa using hb.1) (hall 0 (by omega))
    | ok x =>
      rw [readByte_ok_iff] at hb
      have step : ∀ k, i + 1 + k = i + (k + 1) := fun k => by omega
      have hrec := ih (i + 1)
      cases hr : readRange b m (i + 1) n with
      | ok xs =>
        rw [hr] at hrec
        constructor
        · intro h; cases h
        · rintro ⟨k, hk, rfl, hn, hall⟩
          cases k with
          | zero => rw [Nat.add_zero, hb] at hn; cases hn
          | succ k =>
            have := hrec.mpr ⟨k, by omega, by rw [step], by rw [step]; exact hn,
              fun j hj => by rw [step]; exact hall (j + 1) (by omega)⟩
            cases this
      | error g =>
        rw [hr] at hrec
        constructor
        · intro h
          obtain ⟨k, hk, he, hn, hall⟩ := hrec.mp (by injection h with h; rw [h])
          refine ⟨k + 1, by omega, by rw [he, step], by rw [← step]; exact hn, fun j hj => ?_⟩
          cases j with
          | zero => rw [Nat.add_zero, hb]; simp
          | succ j => rw [← step]; exact hall j (by omega)
        · rintro ⟨k, hk, rfl, hn, hall⟩
          cases k with
          | zero => rw [Nat.add_zero, hb] at hn; cases hn
          | succ k =>
            have := hrec.mpr ⟨k, by omega, by rw [step], by rw [step]; exact hn,
              fun j hj => by rw [step]; exact hall (j + 1) (by omega)⟩
            injection this with this; rw [this]

/-- Reading a range that is written throughout answers some bytes. -/
theorem readRange_ok_of_written (b : Buffer) (m : Memory) (i n : Nat)
    (h : ∀ k, k < n → Memory.read m (i + k) ≠ none) : ∃ bs, readRange b m i n = .ok bs := by
  cases hr : readRange b m i n with
  | ok bs => exact ⟨bs, rfl⟩
  | error f =>
    obtain ⟨k, hk, -, hn, -⟩ := (readRange_error_iff ..).mp hr
    exact absurd hn (h k hk)

/-- Buffers that read alike over a range answer alike. -/
theorem readRange_congr (b : Buffer) {m m' : Memory} (i n : Nat)
    (h : ∀ k, k < n → Memory.read m (i + k) = Memory.read m' (i + k)) :
    readRange b m i n = readRange b m' i n := by
  induction n generalizing i with
  | zero => rfl
  | succ n ih =>
    have h0 : readByte b m i = readByte b m' i := by
      have := h 0 (by omega); simp only [Nat.add_zero] at this; simp [readByte, this]
    have h1 : readRange b m (i + 1) n = readRange b m' (i + 1) n :=
      ih (i + 1) fun k hk => by have := h (k + 1) (by omega); rwa [show i + (k + 1) = i + 1 + k by omega] at this
    rw [readRange, readRange, h0, h1]

end Sys2Proof.Machine
end

