-- ==== Sys2Proof/Laws/Commands.lean ====
section
/-! SUPPORT. One lemma per shared operation that says everything it can do, for callers to cite instead of unfolding
it: how a command ends, the CRC over a range, the serializer, and the stages of PARSE. -/

namespace Sys2Proof.Machine

theorem raise_eq (r : Result) (s : State) :
    raise r s = .next { s with status := { s.status with result := r, err := true } } := rfl

theorem complete_eq (s : State) : complete s = .next { s with status := { s.status with result := .ok } } := rfl

@[simp] theorem feed_nil (c : Config) (r : Half) : feed c r [] = r := rfl

@[simp] theorem feed_cons (c : Config) (r : Half) (b : Byte) (bs : List Byte) :
    feed c r (b :: bs) = feed c (upd c r b) bs := rfl

/-- Feeding in pieces is feeding the whole (R92). -/
theorem feed_append (c : Config) (r : Half) (as bs : List Byte) : feed c r (as ++ bs) = feed c (feed c r as) bs :=
  List.foldl_append ..

theorem payloadFits_iff (n : Nat) : payloadFits n = true ↔ n ≤ 254 := by simp [payloadFits]

theorem rangeFits_iff (a n : Nat) : rangeFits a n = true ↔ a + n ≤ 261 := by simp [rangeFits]

theorem datagramFits_iff (n : Nat) : datagramFits n = true ↔ n ≤ 261 := by simp [datagramFits]

@[simp] theorem length_headerBytes (c : Config) (n : Nat) : (headerBytes c n).length = 4 := rfl

@[simp] theorem length_qtag (q : QueryTag) : q.toList.length = 4 := rfl

@[simp] theorem length_frameBody (c : Config) (p : List Byte) : (frameBody c p).length = 4 + p.length := by
  rw [frameBody, List.length_append, length_headerBytes]

@[simp] theorem length_frame (c : Config) (p : List Byte) : (frame c p).length = 6 + p.length := by
  rw [frame, List.length_append, length_frameBody]; simp; omega

/-- CRC over a range: the range rejected, the bytes fed, or the first unwritten byte's fault (R90, R91). -/
theorem crcRange_cases (b : Buffer) (a n : Nat) (s : State) :
    (261 < a + n ∧ crcRange b a n s = raise .badRange s) ∨
    (a + n ≤ 261 ∧ ∃ bs, bs.length = n ∧ Holds (s.buffer b) a bs ∧
      crcRange b a n s = complete (s.setCrc (feed s.cfg s.crc bs))) ∨
    (a + n ≤ 261 ∧ ∃ k, k < n ∧ Memory.read (s.buffer b) (a + k) = none ∧
      crcRange b a n s = .fault (.unwrittenByte b (a + k))) := by
  unfold crcRange
  split
  · next h =>
    rw [rangeFits_iff] at h
    cases hr : readRange b (s.buffer b) a n with
    | ok bs =>
      have := (readRange_ok_iff ..).mp hr
      exact .inr (.inl ⟨h, bs, this.1, this.2, rfl⟩)
    | error f =>
      obtain ⟨k, hk, rfl, hn, -⟩ := (readRange_error_iff ..).mp hr
      exact .inr (.inr ⟨h, k, hk, hn, rfl⟩)
  · next h => rw [rangeFits_iff] at h; exact .inl ⟨by omega, rfl⟩

/-- CRC over a range that is in the buffer and written (R90, R91). -/
theorem crcRange_of_holds {b : Buffer} {a : Nat} {bs : List Byte} {s : State} (h : a + bs.length ≤ 261)
    (hh : Holds (s.buffer b) a bs) :
    crcRange b a bs.length s = complete (s.setCrc (feed s.cfg s.crc bs)) := by
  have hr := (readRange_ok_iff b (s.buffer b) a bs.length bs).mpr ⟨rfl, hh⟩
  simp [crcRange, (rangeFits_iff ..).mpr h, hr]

/-- Writing the header leaves every other byte (R101). -/
theorem read_withHeader (c : Config) (n : Nat) (m : Memory) (j : Nat) :
    Memory.read (withHeader c n m) j = if j < 4 then (headerBytes c n)[j]? else Memory.read m j := by
  rw [withHeader, Memory.read_writeAll]; simp

/-- Writing the trailer leaves every other byte (R101). -/
theorem read_withTrailer (c : Config) (n : Nat) (v : Half) (m : Memory) (j : Nat) :
    Memory.read (withTrailer c n v m) j =
      if j = 4 + n then some (w16 c.order v).1
      else if j = 5 + n then some (w16 c.order v).2 else Memory.read m j := by
  simp only [withTrailer, Memory.writeAll, Memory.read_write, hdr, show 4 + n + 1 = 5 + n by omega]
  by_cases h5 : j = 5 + n
  · rw [if_pos h5, if_neg (by omega), if_pos h5]
  · simp only [if_neg h5]

/-- The state the serializer leaves for payload `p` (R101). -/
def serialized (p : List Byte) (s : State) : State :=
  let m := withHeader s.cfg p.length s.tx
  let r := raw s.cfg (frameBody s.cfg p)
  ((s.setTx (withTrailer s.cfg p.length (fin s.cfg r) m)).setCrc r).setTxLen (BitVec.ofNat 9 (frameLength p.length))

/-- The header and a payload that stands behind it are the frame's body. -/
theorem holds_frameBody (c : Config) (p : List Byte) (m : Memory) (h : Holds m 4 p) :
    Holds (withHeader c p.length m) 0 (frameBody c p) := by
  rw [frameBody, Holds_append]
  refine ⟨Holds_writeAll _ _ _, ?_⟩
  rw [withHeader, Holds_writeAll_of_disjoint _ _ _ _ _ (.inr (by simp))]
  simpa using h

/-- The serializer on a written payload (R101). -/
theorem serialize_of_holds {p : List Byte} {s : State} (h : Holds s.tx 4 p) :
    serialize p.length s = complete (serialized p s) := by
  have hr := (readRange_ok_iff .tx (withHeader s.cfg p.length s.tx) 0 (hdr + p.length) (frameBody s.cfg p)).mpr
    ⟨by simp [hdr], holds_frameBody _ _ _ h⟩
  simp only [serialize, hr, serialized]

/-- The serializer's two ends: the payload stands there, or a payload byte was never written (R101, R40). -/
theorem serialize_cases (n : Nat) (s : State) :
    (∃ p, p.length = n ∧ Holds s.tx 4 p ∧ serialize n s = complete (serialized p s)) ∨
    (∃ k, k < n ∧ Memory.read s.tx (4 + k) = none ∧ serialize n s = .fault (.unwrittenByte .tx (4 + k))) := by
  cases hr : readRange .tx s.tx 4 n with
  | ok p =>
    obtain ⟨hl, hh⟩ := (readRange_ok_iff ..).mp hr
    subst hl
    exact .inl ⟨p, rfl, hh, serialize_of_holds hh⟩
  | error f =>
    obtain ⟨k, hk, rfl, hn, hall⟩ := (readRange_error_iff ..).mp hr
    refine .inr ⟨k, hk, hn, ?_⟩
    have : readRange .tx (withHeader s.cfg n s.tx) 0 (hdr + n) = .error (.unwrittenByte .tx (4 + k)) := by
      refine (readRange_error_iff ..).mpr ⟨4 + k, by simp [hdr]; omega, by rw [Nat.zero_add], ?_, ?_⟩
      · rw [read_withHeader, if_neg (by omega), Nat.zero_add]; exact hn
      · intro j hj
        rw [read_withHeader, Nat.zero_add]
        split
        · next h4 => rw [List.getElem?_eq_getElem (by simpa using h4)]; simp
        · next h4 =>
          have := hall (j - 4) (by omega)
          rwa [show 4 + (j - 4) = j by omega] at this
    simp only [serialize, this]

/-- The finished frame stands in TX from byte 0 on (R100, R101). -/
theorem holds_frame_serialized {p : List Byte} {s : State} (h : Holds s.tx 4 p) :
    Holds (serialized p s).tx 0 (frame s.cfg p) := by
  have htx : (serialized p s).tx =
      withTrailer s.cfg p.length (fin s.cfg (raw s.cfg (frameBody s.cfg p))) (withHeader s.cfg p.length s.tx) := rfl
  rw [htx, frame, Holds_append]
  constructor
  · refine (Holds_congr fun k hk => ?_).mpr (holds_frameBody s.cfg p s.tx h)
    rw [length_frameBody] at hk
    rw [read_withTrailer, if_neg (by omega), if_neg (by omega)]
  · rw [Holds_cons, Holds_cons, length_frameBody]
    simp only [Holds_nil, and_true, read_withTrailer]
    refine ⟨by rw [if_pos (by omega)]; rfl, by rw [if_neg (by omega), if_pos (by omega)]; rfl⟩

/-- BUILD_CMD's two operand cases (R101, R103). -/
theorem execBuildCmd_of_le {n : Nat} (h : n ≤ 254) (s : State) : execBuildCmd n s = serialize n s := by
  simp [execBuildCmd, (payloadFits_iff n).mpr h]

theorem execBuildCmd_of_gt {n : Nat} (h : 254 < n) (s : State) : execBuildCmd n s = raise .tooLarge s := by
  have : ¬payloadFits n = true := by rw [payloadFits_iff]; omega
  simp [execBuildCmd, this]

/-- BUILD_QUERY always completes (R104). -/
theorem execBuildQuery_eq (s : State) :
    execBuildQuery s = complete (serialized s.cfg.qtag.toList (s.setTx (s.tx.writeAll 4 s.cfg.qtag.toList))) := by
  have h : Holds (s.setTx (s.tx.writeAll 4 s.cfg.qtag.toList)).tx 4 s.cfg.qtag.toList := Holds_writeAll _ _ _
  have := serialize_of_holds h
  rwa [length_qtag] at this

/-- Whether the marker is wrong, in the terms of the two bytes (R105). -/
theorem markerWrong_cases (c : Config) (m : Memory) :
    (∃ b, Memory.read m 0 = some b ∧ b ≠ (markerBytes c).1 ∧ markerWrong c m = .ok true) ∨
    (Memory.read m 0 = some (markerBytes c).1 ∧ ∃ b, Memory.read m 1 = some b ∧ b ≠ (markerBytes c).2 ∧
      markerWrong c m = .ok true) ∨
    (Memory.read m 0 = some (markerBytes c).1 ∧ Memory.read m 1 = some (markerBytes c).2 ∧
      markerWrong c m = .ok false) ∨
    (∃ k, k < 2 ∧ Memory.read m k = none ∧ markerWrong c m = .error (.unwrittenByte .rx k)) := by
  unfold markerWrong
  cases h0 : readByte .rx m 0 with
  | error f =>
    obtain ⟨hn, rfl⟩ := (readByte_error_iff ..).mp h0
    exact .inr (.inr (.inr ⟨0, by omega, hn, rfl⟩))
  | ok b0 =>
    rw [readByte_ok_iff] at h0
    by_cases hb : b0 = (markerBytes c).1
    · subst hb
      cases h1 : readByte .rx m 1 with
      | error f =>
        obtain ⟨hn, rfl⟩ := (readByte_error_iff ..).mp h1
        exact .inr (.inr (.inr ⟨1, by omega, hn, by simp⟩))
      | ok b1 =>
        rw [readByte_ok_iff] at h1
        by_cases hb1 : b1 = (markerBytes c).2
        · subst hb1; exact .inr (.inr (.inl ⟨h0, h1, by simp⟩))
        · exact .inr (.inl ⟨h0, b1, h1, hb1, by simp [hb1]⟩)
    · exact .inl ⟨b0, h0, hb, by simp [hb]⟩

/-- PARSE on a datagram that does not fit, is too short for a header, or has the wrong marker (R105, R106). -/
theorem execParse_of_gt {n : Nat} (h : 261 < n) (s : State) : execParse n s = raise .badRange s := by
  have : ¬datagramFits n = true := by rw [datagramFits_iff]; omega
  simp [execParse, this]

theorem execParse_of_le {n : Nat} (h : n ≤ 261) (s : State) : execParse n s = parseFrame n (clearResults s) := by
  simp [execParse, (datagramFits_iff n).mpr h]

theorem parseFrame_of_lt {n : Nat} (h : n < 4) (s : State) : parseFrame n s = raise .truncated s := by
  simp [parseFrame, hdr, h]

theorem parseFrame_of_markerWrong {n : Nat} (h : 4 ≤ n) {s : State} (hm : markerWrong s.cfg s.rx = .ok true) :
    parseFrame n s = raise .badMarker s := by
  simp [parseFrame, hdr, Nat.not_lt.mpr h, hm]

theorem parseFrame_of_marker {n : Nat} (h : 4 ≤ n) {s : State} (hm : markerWrong s.cfg s.rx = .ok false) :
    parseFrame n s = parseHeader n s := by
  simp [parseFrame, hdr, Nat.not_lt.mpr h, hm]

/-- The two marker bytes standing in RX are the marker (R105). -/
theorem markerWrong_false {c : Config} {m : Memory} (h0 : Memory.read m 0 = some (markerBytes c).1)
    (h1 : Memory.read m 1 = some (markerBytes c).2) : markerWrong c m = .ok false := by
  simp [markerWrong, readByte, h0, h1]

theorem parseHeader_of_read {n : Nat} {s : State} {k l : Byte} (h2 : Memory.read s.rx 2 = some k)
    (h3 : Memory.read s.rx 3 = some l) : parseHeader n s = parseBody n (s.setRxHeader k l) := by
  simp [parseHeader, readByte, h2, h3]

theorem parseBody_of_lt {n : Nat} {s : State} (h : n < 6 + s.rxPlen.toNat) : parseBody n s = raise .truncated s := by
  have : n < frameLength s.rxPlen.toNat := by simp [frameLength, hdr, trl]; omega
  simp [parseBody, this]

/-- PARSE's checksum step, its bytes being there (R105). -/
theorem parseBody_of_holds {n : Nat} {s : State} {bs : List Byte} {t0 t1 : Byte} (h : 6 + s.rxPlen.toNat ≤ n)
    (hl : bs.length = 4 + s.rxPlen.toNat) (hh : Holds s.rx 0 bs)
    (h0 : Memory.read s.rx (4 + s.rxPlen.toNat) = some t0) (h1 : Memory.read s.rx (5 + s.rxPlen.toNat) = some t1) :
    parseBody n s = checksumStep bs t0 t1 s := by
  have hn : ¬n < frameLength s.rxPlen.toNat := by simp [frameLength, hdr, trl]; omega
  have hr := (readRange_ok_iff .rx s.rx 0 (4 + s.rxPlen.toNat) bs).mpr ⟨hl, hh⟩
  have h1' : Memory.read s.rx (4 + s.rxPlen.toNat + 1) = some t1 := by
    rw [show 4 + s.rxPlen.toNat + 1 = 5 + s.rxPlen.toNat by omega]; exact h1
  simp [parseBody, hn, hdr, hr, readByte, h0, h1']

/-- What PARSE does from the length check on: too short, the checksum step, or an unwritten byte (R105, R40). -/
theorem parseBody_cases (n : Nat) (s : State) :
    (n < 6 + s.rxPlen.toNat ∧ parseBody n s = raise .truncated s) ∨
    (6 + s.rxPlen.toNat ≤ n ∧ ∃ bs t0 t1, bs.length = 4 + s.rxPlen.toNat ∧ Holds s.rx 0 bs ∧
      Memory.read s.rx (4 + s.rxPlen.toNat) = some t0 ∧ Memory.read s.rx (5 + s.rxPlen.toNat) = some t1 ∧
      parseBody n s = checksumStep bs t0 t1 s) ∨
    (6 + s.rxPlen.toNat ≤ n ∧ ∃ k, k < 6 + s.rxPlen.toNat ∧ Memory.read s.rx k = none ∧
      parseBody n s = .fault (.unwrittenByte .rx k)) := by
  by_cases hlt : n < 6 + s.rxPlen.toNat
  · exact .inl ⟨hlt, parseBody_of_lt hlt⟩
  · right
    have hn : ¬n < frameLength s.rxPlen.toNat := by simp [frameLength, hdr, trl]; omega
    cases hr : readRange .rx s.rx 0 (4 + s.rxPlen.toNat) with
    | error f =>
      obtain ⟨k, hk, rfl, hnone, -⟩ := (readRange_error_iff ..).mp hr
      rw [Nat.zero_add] at hnone hr
      exact .inr ⟨by omega, k, by omega, hnone, by simp [parseBody, hn, hdr, hr]⟩
    | ok bs =>
      obtain ⟨hl, hh⟩ := (readRange_ok_iff ..).mp hr
      cases h0 : Memory.read s.rx (4 + s.rxPlen.toNat) with
      | none => exact .inr ⟨by omega, _, by omega, h0, by simp [parseBody, hn, hdr, hr, readByte, h0]⟩
      | some t0 =>
        cases h1 : Memory.read s.rx (5 + s.rxPlen.toNat) with
        | none =>
          refine .inr ⟨by omega, _, by omega, h1, ?_⟩
          rw [show 5 + s.rxPlen.toNat = 4 + s.rxPlen.toNat + 1 by omega] at h1 ⊢
          simp [parseBody, hn, hdr, hr, readByte, h0, h1]
        | some t1 =>
          exact .inl ⟨by omega, bs, t0, t1, hl, hh, rfl, rfl, parseBody_of_holds (by omega) hl hh h0 h1⟩

/-- The ends of the checksum step: refused for its mismatch, or accepted (R105, R108). -/
theorem verdict_cases (mm : Bool) (s : State) :
    (mm = true ∧ s.crcEnforce = true ∧ verdict mm s = raise .crcMismatch s) ∨
    ((mm = false ∨ s.crcEnforce = false) ∧ verdict mm s = complete (s.setStatus s.status.accepted)) := by
  unfold verdict
  cases mm <;> cases s.crcEnforce <;> simp

/-- Everything PARSE can do (R105). -/
theorem execParse_cases (n : Nat) (s : State) :
    (261 < n ∧ execParse n s = raise .badRange s) ∨
    (n < 4 ∧ execParse n s = raise .truncated (clearResults s)) ∨
    (4 ≤ n ∧ n ≤ 261 ∧ markerWrong s.cfg s.rx = .ok true ∧ execParse n s = raise .badMarker (clearResults s)) ∨
    (4 ≤ n ∧ n ≤ 261 ∧ ∃ kind plen, Memory.read s.rx 0 = some (markerBytes s.cfg).1 ∧
      Memory.read s.rx 1 = some (markerBytes s.cfg).2 ∧ Memory.read s.rx 2 = some kind ∧
      Memory.read s.rx 3 = some plen ∧ execParse n s = parseBody n ((clearResults s).setRxHeader kind plen)) ∨
    (4 ≤ n ∧ n ≤ 261 ∧ ∃ k, k < 4 ∧ Memory.read s.rx k = none ∧ execParse n s = .fault (.unwrittenByte .rx k)) := by
  by_cases hgt : 261 < n
  · exact .inl ⟨hgt, execParse_of_gt hgt s⟩
  rw [execParse_of_le (by omega)]
  by_cases hlt : n < 4
  · exact .inr (.inl ⟨hlt, parseFrame_of_lt hlt _⟩)
  have hrx : (clearResults s).rx = s.rx := rfl
  have hcfg : (clearResults s).cfg = s.cfg := rfl
  have h4 : 4 ≤ n := by omega
  right; right
  rcases markerWrong_cases s.cfg s.rx with ⟨b, -, -, hm⟩ | ⟨-, b, -, -, hm⟩ | ⟨h0, h1, hm⟩ | ⟨k, hk, hn, hm⟩
  · exact .inl ⟨h4, by omega, hm, parseFrame_of_markerWrong h4 (by rw [hcfg, hrx]; exact hm)⟩
  · exact .inl ⟨h4, by omega, hm, parseFrame_of_markerWrong h4 (by rw [hcfg, hrx]; exact hm)⟩
  · right
    rw [parseFrame_of_marker h4 (by rw [hcfg, hrx]; exact hm)]
    cases h2 : Memory.read s.rx 2 with
    | none => exact .inr ⟨h4, by omega, 2, by omega, h2, by simp [parseHeader, readByte, hrx, h2]⟩
    | some kind =>
      cases h3 : Memory.read s.rx 3 with
      | none => exact .inr ⟨h4, by omega, 3, by omega, h3, by simp [parseHeader, readByte, hrx, h2, h3]⟩
      | some plen =>
        exact .inl ⟨h4, by omega, kind, plen, h0, h1, rfl, rfl,
          parseHeader_of_read (by rw [hrx]; exact h2) (by rw [hrx]; exact h3)⟩
  · refine .inr (.inr ⟨h4, by omega, k, by omega, hn, ?_⟩)
    simp [parseFrame, hdr, hlt, hcfg, hrx, hm]

end Sys2Proof.Machine
end

