-- ==== Sys2Proof/Laws/Decode.lean ====
section
/-! SUPPORT. The bits of the four command formats, the rows of the opcode map apart from each other, and what the
decoder answers in terms of the rows. -/

namespace Sys2Proof

theorem getLsbD_formatN (op : BitVec 8) (k : Nat) :
    (formatN op).getLsbD k = if k < 24 then false else op.getLsbD (k - 24) := by
  show BitVec.getLsbD (op ++ 0#24) k = _
  simp only [BitVec.getLsbD_append, BitVec.getLsbD_zero]

theorem getLsbD_formatB (op : BitVec 8) (d k : Nat) :
    (formatB op d).getLsbD k =
      if k < 8 then (BitVec.ofNat 8 d).getLsbD k else if k < 24 then false else op.getLsbD (k - 24) := by
  show BitVec.getLsbD (op ++ 0#16 ++ BitVec.ofNat 8 d) k = _
  simp only [BitVec.getLsbD_append, BitVec.getLsbD_zero, show k - 8 - 16 = k - 24 by omega]
  split_ifs <;> first | rfl | omega

theorem getLsbD_formatR (op : BitVec 8) (s n k : Nat) :
    (formatR op s n).getLsbD k =
      if k < 9 then (BitVec.ofNat 9 n).getLsbD k else if k < 12 then false
      else if k < 21 then (BitVec.ofNat 9 s).getLsbD (k - 12) else if k < 24 then false else op.getLsbD (k - 24) := by
  show BitVec.getLsbD (op ++ 0#3 ++ BitVec.ofNat 9 s ++ 0#3 ++ BitVec.ofNat 9 n) k = _
  simp only [BitVec.getLsbD_append, BitVec.getLsbD_zero, show k - 9 - 3 = k - 12 by omega,
    show k - 12 - 9 = k - 21 by omega, show k - 21 - 3 = k - 24 by omega]
  split_ifs <;> first | rfl | omega

theorem getLsbD_formatL (op : BitVec 8) (n k : Nat) :
    (formatL op n).getLsbD k =
      if k < 9 then (BitVec.ofNat 9 n).getLsbD k else if k < 24 then false else op.getLsbD (k - 24) := by
  show BitVec.getLsbD (op ++ 0#15 ++ BitVec.ofNat 9 n) k = _
  simp only [BitVec.getLsbD_append, BitVec.getLsbD_zero, show k - 9 - 15 = k - 24 by omega]
  split_ifs <;> first | rfl | omega

/-- The fixed bits of each format are the opcode and zeros (R67 to R70). -/
theorem formatB_fixed (op : BitVec 8) (d : Nat) : formatB op d &&& 0xFFFFFF00#32 = formatN op := by
  refine BitVec.eq_of_getLsbD_eq fun k hk => ?_
  rw [BitVec.getLsbD_and, getLsbD_formatB, getLsbD_formatN]
  interval_cases k <;> simp

theorem formatR_fixed (op : BitVec 8) (s n : Nat) : formatR op s n &&& 0xFFE00E00#32 = formatN op := by
  refine BitVec.eq_of_getLsbD_eq fun k hk => ?_
  rw [BitVec.getLsbD_and, getLsbD_formatR, getLsbD_formatN]
  interval_cases k <;> simp

theorem formatL_fixed (op : BitVec 8) (n : Nat) : formatL op n &&& 0xFFFFFE00#32 = formatN op := by
  refine BitVec.eq_of_getLsbD_eq fun k hk => ?_
  rw [BitVec.getLsbD_and, getLsbD_formatL, getLsbD_formatN]
  interval_cases k <;> simp

/-- The operand fields of each format give back the operands that fit (R71). -/
theorem dField_formatB (op : BitVec 8) {d : Nat} (h : d ≤ 255) : dField (formatB op d) = d := by
  have : (formatB op d).extractLsb' 0 8 = BitVec.ofNat 8 d := by
    refine BitVec.eq_of_getLsbD_eq fun k hk => ?_
    rw [BitVec.getLsbD_extractLsb', getLsbD_formatB]
    interval_cases k <;> simp
  rw [dField, this, BitVec.toNat_ofNat]; omega

theorem sField_formatR (op : BitVec 8) {s : Nat} (n : Nat) (h : s ≤ 511) : sField (formatR op s n) = s := by
  have : (formatR op s n).extractLsb' 12 9 = BitVec.ofNat 9 s := by
    refine BitVec.eq_of_getLsbD_eq fun k hk => ?_
    rw [BitVec.getLsbD_extractLsb', getLsbD_formatR]
    interval_cases k <;> simp
  rw [sField, this, BitVec.toNat_ofNat]; omega

theorem nField_formatR (op : BitVec 8) (s : Nat) {n : Nat} (h : n ≤ 511) : nField (formatR op s n) = n := by
  have : (formatR op s n).extractLsb' 0 9 = BitVec.ofNat 9 n := by
    refine BitVec.eq_of_getLsbD_eq fun k hk => ?_
    rw [BitVec.getLsbD_extractLsb', getLsbD_formatR]
    interval_cases k <;> simp
  rw [nField, this, BitVec.toNat_ofNat]; omega

theorem nField_formatL (op : BitVec 8) {n : Nat} (h : n ≤ 511) : nField (formatL op n) = n := by
  have : (formatL op n).extractLsb' 0 9 = BitVec.ofNat 9 n := by
    refine BitVec.eq_of_getLsbD_eq fun k hk => ?_
    rw [BitVec.getLsbD_extractLsb', getLsbD_formatL]
    interval_cases k <;> simp
  rw [nField, this, BitVec.toNat_ofNat]; omega

theorem dField_lt (w : Word) : dField w < 256 := (w.extractLsb' 0 8).isLt

theorem sField_lt (w : Word) : sField w < 512 := (w.extractLsb' 12 9).isLt

theorem nField_lt (w : Word) : nField w < 512 := (w.extractLsb' 0 9).isLt

/-- A word whose fixed bits are an opcode is that opcode's format of its own operand fields. -/
theorem formatB_of_fixed {w : Word} {op : BitVec 8} (h : w &&& 0xFFFFFF00#32 = formatN op) :
    formatB op (dField w) = w := by
  refine BitVec.eq_of_getLsbD_eq fun k hk => ?_
  have h' := congrArg (fun x => BitVec.getLsbD x k) h
  simp only [BitVec.getLsbD_and, getLsbD_formatN] at h'
  rw [getLsbD_formatB, dField, BitVec.ofNat_toNat]
  simp only [BitVec.setWidth_eq, BitVec.getLsbD_extractLsb']
  revert h'
  interval_cases k <;> simp <;> exact Eq.symm

theorem formatR_of_fixed {w : Word} {op : BitVec 8} (h : w &&& 0xFFE00E00#32 = formatN op) :
    formatR op (sField w) (nField w) = w := by
  refine BitVec.eq_of_getLsbD_eq fun k hk => ?_
  have h' := congrArg (fun x => BitVec.getLsbD x k) h
  simp only [BitVec.getLsbD_and, getLsbD_formatN] at h'
  rw [getLsbD_formatR, sField, nField, BitVec.ofNat_toNat, BitVec.ofNat_toNat]
  simp only [BitVec.setWidth_eq, BitVec.getLsbD_extractLsb']
  revert h'
  interval_cases k <;> simp <;> exact Eq.symm

theorem formatL_of_fixed {w : Word} {op : BitVec 8} (h : w &&& 0xFFFFFE00#32 = formatN op) :
    formatL op (nField w) = w := by
  refine BitVec.eq_of_getLsbD_eq fun k hk => ?_
  have h' := congrArg (fun x => BitVec.getLsbD x k) h
  simp only [BitVec.getLsbD_and, getLsbD_formatN] at h'
  rw [getLsbD_formatL, nField, BitVec.ofNat_toNat]
  simp only [BitVec.setWidth_eq, BitVec.getLsbD_extractLsb']
  revert h'
  interval_cases k <;> simp <;> exact Eq.symm

/-- Any two rows differ in a bit that is fixed in both. -/
theorem opTable_apart : opTable.Pairwise fun r r' => (r.value &&& r'.mask) ≠ (r'.value &&& r.mask) := by decide

theorem hits_iff (r : OpRow) (w : Word) : r.hits w = true ↔ w &&& r.mask = r.value := by simp [OpRow.hits]

/-- Rows of the map that match one word stand at one place. -/
theorem not_both_hit {r r' : OpRow} {w : Word} (h : (r.value &&& r'.mask) ≠ (r'.value &&& r.mask))
    (hr : r.hits w = true) : r'.hits w = false := by
  cases hb : r'.hits w with
  | false => rfl
  | true =>
    rw [hits_iff] at hr hb
    exact absurd (by rw [← hr, ← hb, BitVec.and_assoc, BitVec.and_assoc, BitVec.and_comm r.mask]) h

/-- In a list of rows apart from each other, the search finds the row that matches. -/
theorem find?_of_hits {l : List OpRow} (hp : l.Pairwise fun r r' => (r.value &&& r'.mask) ≠ (r'.value &&& r.mask))
    {r : OpRow} {w : Word} (hm : r ∈ l) (hr : r.hits w = true) : l.find? (fun r => r.hits w) = some r := by
  induction l with
  | nil => simp at hm
  | cons x xs ih =>
    have hx := List.pairwise_cons.mp hp
    rcases List.mem_cons.mp hm with rfl | hm
    · rw [List.find?_cons, hr]
    · have : x.hits w = false := not_both_hit (fun e => (hx.1 r hm) e.symm) hr
      rw [List.find?_cons, this, ih hx.2 hm]

/-- The decoder answers a command exactly when a row of the map matches and gives it (R66). -/
theorem decode_ok_iff (w : Word) (i : Instr) :
    decode w = .ok i ↔ ∃ r ∈ opTable, r.hits w = true ∧ r.command w = i := by
  constructor
  · intro h
    unfold decode at h
    split at h
    · next r hf =>
      exact ⟨r, List.mem_of_find?_eq_some hf, by simpa using List.find?_some hf, by injection h⟩
    · cases h
  · rintro ⟨r, hm, hr, rfl⟩
    unfold decode
    rw [find?_of_hits opTable_apart hm hr]

/-- The decoder rejects a word exactly when no row matches (R66, R73). -/
theorem decode_error_iff (w : Word) : (∃ e, decode w = .error e) ↔ ∀ r ∈ opTable, r.hits w = false := by
  constructor
  · rintro ⟨e, he⟩ r hm
    cases hb : r.hits w with
    | false => rfl
    | true => rw [(decode_ok_iff w _).mpr ⟨r, hm, hb, rfl⟩] at he; cases he
  · intro h
    unfold decode
    rw [List.find?_eq_none.mpr fun r hm => by simp [h r hm]]
    exact ⟨_, rfl⟩

end Sys2Proof
end

