-- ==== Sys2Proof/Laws/Step.lean ====
section
/-! SUPPORT. The bus: where a host access goes, one step of a read or a write, and everything a step can do. -/

namespace Sys2Proof.Machine

/-- A full-word access at an aligned offset of the window reaches the port at that word (R45, R46). -/
theorem portAddr_of_offset (c : Config) {off : Nat} (h : off < 0x4000) (ha : off % 4 = 0) (op : BusOp) :
    portAddr c { addr := busAddr c off, bytes := 4, op := op } = .ok (BitVec.ofNat 12 (off / 4)) := by
  have h1 : ¬(busAddr c off < c.base ∨ c.base + windowSize ≤ busAddr c off) := by
    simp only [busAddr, windowSize]; omega
  have h2 : busAddr c off - c.base = off := by simp only [busAddr]; omega
  simp [portAddr, h1, h2, ha]

/-- The offset of the word a port address names (R45). -/
theorem offsetOf_ofNat {off : Nat} (h : off < 0x4000) (ha : off % 4 = 0) :
    offsetOf (BitVec.ofNat 12 (off / 4)) = off := by
  rw [offsetOf, BitVec.toNat_ofNat]; omega

/-- An access that reaches the port is a full word at an aligned offset of the window (R45, R46, R50). -/
theorem portAddr_ok {c : Config} {a : Access} {p : PortAddr} (h : portAddr c a = .ok p) :
    ∃ off, off < 0x4000 ∧ off % 4 = 0 ∧ a = { addr := busAddr c off, bytes := 4, op := a.op } ∧ offsetOf p = off := by
  obtain ⟨addr, bytes, op⟩ := a
  simp only [portAddr] at h
  split at h
  · cases h
  · split at h
    · cases h
    · split at h
      · cases h
      · next h1 h2 h3 =>
        injection h with h
        simp only [windowSize, not_or, not_lt, not_le, not_not] at h1 h2 h3
        refine ⟨addr - c.base, by omega, h3, ?_, ?_⟩
        · simp only [busAddr, Access.mk.injEq, and_true]; omega
        · rw [← h]; exact offsetOf_ofNat (by omega) h3

/-- One step of a bus read (R49). -/
theorem step_rd {s : State} {off : Nat} {rest : List BusEvent} (hp : s.pending = .access (rd s.cfg off) :: rest)
    (h : off < 0x4000) (ha : off % 4 = 0) :
    step s = match readTarget s (targetAt off) with
      | .ok v => .next { s with pending := rest, rdata := some v }
      | .error f => .fault f := by
  have hr : ∀ g, readTarget (s.setPending rest) g = readTarget s g := fun g => by cases g <;> rfl
  have hpa := portAddr_of_offset s.cfg h ha .read
  simp only [step, nextEvent, hp, busEvent, access, rd, State.setPending_cfg, hpa, transaction, offsetOf_ofNat h ha, hr]
  cases readTarget s (targetAt off) <;> rfl

/-- One step of a bus write (R50). -/
theorem step_wr {s : State} {off : Nat} {w : Word} {rest : List BusEvent}
    (hp : s.pending = .access (wr s.cfg off w) :: rest) (h : off < 0x4000) (ha : off % 4 = 0) :
    step s = writeTarget w { s with pending := rest, rdata := none } (targetAt off) := by
  have hpa := portAddr_of_offset s.cfg h ha (.write w)
  simp only [step, nextEvent, hp, busEvent, access, wr, State.setPending_cfg, hpa, transaction, offsetOf_ofNat h ha]
  rfl

theorem step_nil {s : State} (hp : s.pending = []) : step s = .next s := by simp only [step, nextEvent, hp]

theorem step_reset {s : State} {cut : Option Access} {rest : List BusEvent} (hp : s.pending = .reset cut :: rest) :
    step s = .next (State.resetOf s.cfg rest) := by
  simp only [step, nextEvent, hp, busEvent, resetEdge]; rfl

/-- Everything a step that has a next state can do: nothing, a reset, a read, or a write (R49, R50, R144, R150). -/
theorem step_cases {s t : State} (h : step s = .next t) :
    (s.pending = [] ∧ t = s) ∨
    (∃ cut rest, s.pending = .reset cut :: rest ∧ t = State.resetOf s.cfg rest) ∨
    (∃ off rest v, off < 0x4000 ∧ off % 4 = 0 ∧ s.pending = .access (rd s.cfg off) :: rest ∧
      readTarget s (targetAt off) = .ok v ∧ t = { s with pending := rest, rdata := some v }) ∨
    (∃ off rest w, off < 0x4000 ∧ off % 4 = 0 ∧ s.pending = .access (wr s.cfg off w) :: rest ∧
      writeTarget w { s with pending := rest, rdata := none } (targetAt off) = .next t) := by
  cases hp : s.pending with
  | nil => rw [step_nil hp] at h; injection h with h; exact .inl ⟨rfl, h.symm⟩
  | cons e rest =>
    right
    cases e with
    | reset cut => rw [step_reset hp] at h; injection h with h; exact .inl ⟨cut, rest, rfl, h.symm⟩
    | access a =>
      right
      cases hpa : portAddr s.cfg a with
      | error b =>
        simp only [step, nextEvent, hp, busEvent, access, State.setPending_cfg, hpa] at h
        cases b <;> cases h
      | ok p =>
        obtain ⟨off, hlt, hal, ha, -⟩ := portAddr_ok hpa
        cases hop : a.op with
        | read =>
          rw [hop] at ha
          rw [step_rd (by rw [hp, ha]; rfl) hlt hal] at h
          cases hr : readTarget s (targetAt off) with
          | error f => rw [hr] at h; cases h
          | ok v =>
            rw [hr] at h; injection h with h
            exact .inl ⟨off, rest, v, hlt, hal, by rw [ha]; rfl, hr, h.symm⟩
        | write w =>
          rw [hop] at ha
          rw [step_wr (by rw [hp, ha]; rfl) hlt hal] at h
          exact .inr ⟨off, rest, w, hlt, hal, by rw [ha]; rfl, h⟩

/-- Everything a bus write that has a next state can do (R50, R51). -/
theorem writeTarget_cases {w : Word} {s t : State} {g : Target} (h : writeTarget w s g = .next t) :
    (g = .cmd ∧ runCommand w s = .next t) ∨
    (g = .ctrl ∧ t = s.setCrcEnforce (w.getLsbD 0)) ∨
    (g = .crc ∧ t = s.setCrc (w.extractLsb' 0 16)) ∨
    (∃ i, g = .tx i ∧ t = s.setTx (s.tx.write i (w.extractLsb' 0 8))) ∨
    (∃ i, g = .rx i ∧ t = s.setRx (s.rx.write i (w.extractLsb' 0 8))) ∨
    t = s := by
  cases g with
  | cmd => exact .inl ⟨rfl, h⟩
  | ctrl => injection h with h; exact .inr (.inl ⟨rfl, h.symm⟩)
  | crc => injection h with h; exact .inr (.inr (.inl ⟨rfl, h.symm⟩))
  | tx i => injection h with h; exact .inr (.inr (.inr (.inl ⟨i, rfl, h.symm⟩)))
  | rx i => injection h with h; exact .inr (.inr (.inr (.inr (.inl ⟨i, rfl, h.symm⟩))))
  | status => injection h with h; exact .inr (.inr (.inr (.inr (.inr h.symm))))
  | crcOut => injection h with h; exact .inr (.inr (.inr (.inr (.inr h.symm))))
  | txLen => injection h with h; exact .inr (.inr (.inr (.inr (.inr h.symm))))
  | rxPlen => injection h with h; exact .inr (.inr (.inr (.inr (.inr h.symm))))
  | rxKind => injection h with h; exact .inr (.inr (.inr (.inr (.inr h.symm))))
  | rxCalc => injection h with h; exact .inr (.inr (.inr (.inr (.inr h.symm))))
  | rxRecv => injection h with h; exact .inr (.inr (.inr (.inr (.inr h.symm))))
  | reserved => injection h with h; exact .inr (.inr (.inr (.inr (.inr h.symm))))

/-- From offset 0x28 on the address map has only the buffers and reserved offsets (R46). -/
theorem targetAt_past_registers {off : Nat} (h : 0x28 ≤ off) :
    targetAt off =
      if 0x1000 ≤ off ∧ off ≤ 0x1410 then .tx ((off - 0x1000) / 4)
      else if 0x2000 ≤ off ∧ off ≤ 0x2410 then .rx ((off - 0x2000) / 4) else .reserved := by
  unfold targetAt
  iterate 10 rw [if_neg (by omega)]

/-- The two buffers' places in the address map (R46). -/
theorem targetAt_tx {i : Nat} (h : i ≤ 260) : targetAt (0x1000 + 4 * i) = .tx i := by
  rw [targetAt_past_registers (by omega), if_pos (by omega)]
  congr 1; omega

theorem targetAt_rx {i : Nat} (h : i ≤ 260) : targetAt (0x2000 + 4 * i) = .rx i := by
  rw [targetAt_past_registers (by omega), if_neg (by omega), if_pos (by omega)]
  congr 1; omega

/-- A choice that is not its first branch is its second. -/
theorem of_ite_ne {p : Prop} [Decidable p] {a b x : Target} (h : (if p then a else b) = x) (hne : a ≠ x) : b = x := by
  by_cases hp : p
  · rw [if_pos hp] at h; exact absurd h hne
  · rwa [if_neg hp] at h

/-- Past the ten registers of the address map, only the buffers and the reserved offsets are left (R46). -/
theorem targetAt_buffers {off : Nat} {g : Target} (h : targetAt off = g) (hg : (∃ i, g = .tx i) ∨ ∃ i, g = .rx i) :
    (if 0x1000 ≤ off ∧ off ≤ 0x1410 then Target.tx ((off - 0x1000) / 4)
      else if 0x2000 ≤ off ∧ off ≤ 0x2410 then .rx ((off - 0x2000) / 4) else .reserved) = g := by
  have hne : ∀ x : Target, (∀ i, x ≠ .tx i) → (∀ i, x ≠ .rx i) → x ≠ g := by
    rintro x h1 h2 rfl
    rcases hg with ⟨i, hi⟩ | ⟨i, hi⟩
    · exact h1 i hi
    · exact h2 i hi
  unfold targetAt at h
  iterate 10 (replace h := of_ite_ne h (hne _ (fun _ => nofun) (fun _ => nofun)))
  exact h

/-- Every address that names a buffer byte names one of its 261 (R38, R39, R46). -/
theorem targetAt_tx_lt {off i : Nat} (h : targetAt off = .tx i) : i < bufSize := by
  have h' := targetAt_buffers h (.inl ⟨i, rfl⟩)
  by_cases ht : 0x1000 ≤ off ∧ off ≤ 0x1410
  · rw [if_pos ht] at h'; injection h' with h'; simp only [bufSize]; omega
  · rw [if_neg ht] at h'
    by_cases hr : 0x2000 ≤ off ∧ off ≤ 0x2410
    · rw [if_pos hr] at h'; cases h'
    · rw [if_neg hr] at h'; cases h'

theorem targetAt_rx_lt {off i : Nat} (h : targetAt off = .rx i) : i < bufSize := by
  have h' := targetAt_buffers h (.inr ⟨i, rfl⟩)
  by_cases ht : 0x1000 ≤ off ∧ off ≤ 0x1410
  · rw [if_pos ht] at h'; cases h'
  · rw [if_neg ht] at h'
    by_cases hr : 0x2000 ≤ off ∧ off ≤ 0x2410
    · rw [if_pos hr] at h'; injection h' with h'; simp only [bufSize]; omega
    · rw [if_neg hr] at h'; cases h'

/-- The reserved ranges of the address map (R46, R51). -/
theorem targetAt_reserved {off : Nat} (h : 0x28 ≤ off ∧ off ≤ 0xFFC ∨ 0x1414 ≤ off ∧ off ≤ 0x1FFC ∨ 0x2414 ≤ off) :
    targetAt off = .reserved := by
  rw [targetAt_past_registers (by omega), if_neg (by omega), if_neg (by omega)]

end Sys2Proof.Machine
end

