-- ==== Sys2Proof/Laws/Exec.lean ====
section
/-! SUPPORT. Everything a command, a command word and a step can do when they answer a next state, said once. -/

namespace Sys2Proof.Machine

theorem raise_next {r : Result} {s t : State} (h : raise r s = .next t) :
    t = { s with status := { s.status with result := r, err := true } } := by
  injection h with h; exact h.symm

/-- The serializer's end, the payload's length named (R101). -/
theorem complete_serialized {p : List Byte} {n : Nat} (h : p.length = n) (s : State) :
    complete (serialized p s) = .next { s with
      tx := withTrailer s.cfg n (fin s.cfg (raw s.cfg (frameBody s.cfg p))) (withHeader s.cfg n s.tx),
      crc := raw s.cfg (frameBody s.cfg p), txLen := BitVec.ofNat 9 (frameLength n),
      status := { s.status with result := .ok } } := by
  subst h; rfl

/-- The checksum step's two ends (R105, R108). -/
theorem checksumStep_cases (bs : List Byte) (t0 t1 : Byte) (s : State) :
    ∃ r want got q, (q = true → s.rxPlen = 4#8) ∧
      ((want ≠ got ∧ checksumStep bs t0 t1 s = .next { s with
          crc := r, rxCalc := want, rxRecv := got,
          status := { s.status with result := .crcMismatch, err := true, crcMm := true, isQuery := q } }) ∨
        checksumStep bs t0 t1 s = .next { s with
          crc := r, rxCalc := want, rxRecv := got,
          status := { s.status with result := .ok, crcMm := decide (want ≠ got), isQuery := q, rxOk := true } }) := by
  have e : checksumStep bs t0 t1 s =
      verdict (mismatch (fin s.cfg (raw s.cfg bs)) (r16 s.cfg.order t0 t1)) { s with
        crc := raw s.cfg bs, rxCalc := fin s.cfg (raw s.cfg bs), rxRecv := r16 s.cfg.order t0 t1,
        status := { s.status with
          isQuery := queryFlag s.cfg.qtag s.rxPlen (bs.drop hdr),
          crcMm := mismatch (fin s.cfg (raw s.cfg bs)) (r16 s.cfg.order t0 t1) } } := rfl
  have hq : queryFlag s.cfg.qtag s.rxPlen (bs.drop hdr) = true → s.rxPlen = 4#8 := fun h => by
    simp only [queryFlag, Bool.and_eq_true, beq_iff_eq] at h; exact h.1
  have hmm : ∀ want got : Half, mismatch want got = decide (want ≠ got) := fun want got => by
    by_cases h : want = got <;> simp [mismatch, h]
  rw [e, hmm]
  revert hq
  generalize queryFlag _ _ _ = q, raw s.cfg bs = r, r16 _ _ _ = got
  generalize fin _ _ = want
  intro hq
  refine ⟨r, want, got, q, hq, ?_⟩
  rcases verdict_cases (decide (want ≠ got)) { s with
    crc := r, rxCalc := want, rxRecv := got,
    status := { s.status with isQuery := q, crcMm := decide (want ≠ got) } } with ⟨a, -, c⟩ | ⟨-, c⟩
  · rw [c, raise_eq, a]; exact .inl ⟨of_decide_eq_true a, rfl⟩
  · rw [c]; exact .inr rfl

/-- The effects of the commands that answer a next state: `Effect s i t` says that `i` may take `s` to `t`. -/
inductive Effect (s : State) : Instr → State → Prop
  | nop : Effect s .nop { s with status := { s.status with result := .ok } }
  | crcInit : Effect s .crcInit { s with crc := s.cfg.init, status := { s.status with result := .ok } }
  | crcByte (d : Nat) : Effect s (.crcByte d)
      { s with crc := upd s.cfg s.crc (byteOperand d), status := { s.status with result := .ok } }
  | crcTxBadRange (a n : Nat) (h : 261 < a + n) : Effect s (.crcTx a n)
      { s with status := { s.status with result := .badRange, err := true } }
  | crcTx (a n : Nat) (r : Half) : Effect s (.crcTx a n)
      { s with crc := r, status := { s.status with result := .ok } }
  | crcRxBadRange (a n : Nat) (h : 261 < a + n) : Effect s (.crcRx a n)
      { s with status := { s.status with result := .badRange, err := true } }
  | crcRx (a n : Nat) (r : Half) : Effect s (.crcRx a n)
      { s with crc := r, status := { s.status with result := .ok } }
  | clrErr : Effect s .clrErr { s with status := { s.status with err := false, result := .ok } }
  | tooLarge (n : Nat) (h : 254 < n) : Effect s (.buildCmd n)
      { s with status := { s.status with result := .tooLarge, err := true } }
  | buildCmd (n : Nat) (r v : Half) (h : n ≤ 254) : Effect s (.buildCmd n)
      { s with tx := withTrailer s.cfg n v (withHeader s.cfg n s.tx), crc := r,
               txLen := BitVec.ofNat 9 (frameLength n), status := { s.status with result := .ok } }
  | buildQuery (r v : Half) : Effect s .buildQuery
      { s with tx := withTrailer s.cfg 4 v (withHeader s.cfg 4 (s.tx.writeAll 4 s.cfg.qtag.toList)), crc := r,
               txLen := BitVec.ofNat 9 (frameLength 4), status := { s.status with result := .ok } }
  | parseBadRange (n : Nat) (h : 261 < n) : Effect s (.parse n)
      { s with status := { s.status with result := .badRange, err := true } }
  | parseFramingError (n : Nat) (h : n ≤ 261) (r : Result) (hr : r = .truncated ∨ r = .badMarker) (k l : Byte) :
      Effect s (.parse n)
        { s with rxPlen := l, rxKind := k, rxCalc := 0, rxRecv := 0,
                 status := { result := r, err := true, crcMm := false, isQuery := false, rxOk := false } }
  | parseMismatch (n : Nat) (h : n ≤ 261) (r want got : Half) (k l : Byte) (q : Bool) (hq : q = true → l = 4#8)
      (hne : want ≠ got) : Effect s (.parse n)
        { s with crc := r, rxPlen := l, rxKind := k, rxCalc := want, rxRecv := got,
                 status := { result := .crcMismatch, err := true, crcMm := true, isQuery := q, rxOk := false } }
  | parseOk (n : Nat) (h : n ≤ 261) (r want got : Half) (k l : Byte) (q : Bool) (hq : q = true → l = 4#8) :
      Effect s (.parse n)
        { s with crc := r, rxPlen := l, rxKind := k, rxCalc := want, rxRecv := got,
                 status := { result := .ok, err := s.status.err, crcMm := decide (want ≠ got), isQuery := q,
                             rxOk := true } }

theorem effect_of_eq {i : Instr} {s t u : State} (h : exec i s = .next t) (he : exec i s = .next u)
    (hx : Effect s i u) : Effect s i t := by
  rw [he] at h; injection h with h; exact h ▸ hx

theorem no_next_of_fault {i : Instr} {s t : State} {f : Fault} (h : exec i s = .next t) (he : exec i s = .fault f) :
    False := by
  rw [he] at h; cases h

theorem execParse_effect {n : Nat} {s t : State} (h : exec (.parse n) s = .next t) : Effect s (.parse n) t := by
  rcases execParse_cases n s with ⟨hn, e⟩ | ⟨hn, e⟩ | ⟨-, hn, -, e⟩ | ⟨-, hn, kind, l, -, -, -, -, e⟩ | ⟨-, -, k, -, -, e⟩
  · exact effect_of_eq h e (.parseBadRange n hn)
  · exact effect_of_eq h e (.parseFramingError n (by omega) .truncated (.inl rfl) 0 0)
  · exact effect_of_eq h e (.parseFramingError n hn .badMarker (.inr rfl) 0 0)
  · rcases parseBody_cases n ((clearResults s).setRxHeader kind l) with ⟨-, e'⟩ | ⟨-, bs, t0, t1, -, -, -, -, e'⟩ |
      ⟨-, j, -, -, e'⟩
    · exact effect_of_eq h (e.trans e') (.parseFramingError n hn .truncated (.inl rfl) kind l)
    · obtain ⟨r, want, got, q, hq, ⟨hne, hc⟩ | hc⟩ := checksumStep_cases bs t0 t1 ((clearResults s).setRxHeader kind l)
      · exact effect_of_eq h (e.trans (e'.trans hc)) (.parseMismatch n hn r want got kind l q hq hne)
      · exact effect_of_eq h (e.trans (e'.trans hc)) (.parseOk n hn r want got kind l q hq)
    · exact (no_next_of_fault h (e.trans e')).elim
  · exact (no_next_of_fault h e).elim

/-- A command that answers a next state has one of the effects (R72). -/
theorem exec_effect {i : Instr} {s t : State} (h : exec i s = .next t) : Effect s i t := by
  cases i with
  | nop => exact effect_of_eq h rfl .nop
  | crcInit => exact effect_of_eq h rfl .crcInit
  | crcByte d => exact effect_of_eq h rfl (.crcByte d)
  | clrErr => exact effect_of_eq h rfl .clrErr
  | crcTx a n =>
    rcases crcRange_cases .tx a n s with ⟨hn, e⟩ | ⟨-, bs, -, -, e⟩ | ⟨-, k, -, -, e⟩
    · exact effect_of_eq h e (.crcTxBadRange a n hn)
    · exact effect_of_eq h e (.crcTx a n _)
    · exact (no_next_of_fault h e).elim
  | crcRx a n =>
    rcases crcRange_cases .rx a n s with ⟨hn, e⟩ | ⟨-, bs, -, -, e⟩ | ⟨-, k, -, -, e⟩
    · exact effect_of_eq h e (.crcRxBadRange a n hn)
    · exact effect_of_eq h e (.crcRx a n _)
    · exact (no_next_of_fault h e).elim
  | buildCmd n =>
    rcases Nat.lt_or_ge 254 n with hn | hn
    · exact effect_of_eq h (execBuildCmd_of_gt hn s) (.tooLarge n hn)
    · rcases serialize_cases n s with ⟨p, hl, -, e⟩ | ⟨k, -, -, e⟩
      · exact effect_of_eq h ((execBuildCmd_of_le hn s).trans (e.trans (complete_serialized hl s))) (.buildCmd n _ _ hn)
      · exact (no_next_of_fault h ((execBuildCmd_of_le hn s).trans e)).elim
  | buildQuery =>
    have e := execBuildQuery_eq s
    rw [complete_serialized (n := 4) rfl] at e
    exact effect_of_eq h e (.buildQuery _ _)
  | parse n => exact execParse_effect h

/-- A command word that answers a next state ran its command, or was illegal (R66, R122). -/
theorem runCommand_effect {w : Word} {s t : State} (h : runCommand w s = .next t) :
    (∃ i, decode w = .ok i ∧ Effect s i t) ∨
    ((∃ e, decode w = .error e) ∧ t = { s with status := { s.status with result := .illegal, err := true } }) := by
  unfold runCommand at h
  cases hd : decode w with
  | ok i => rw [hd] at h; exact .inl ⟨i, rfl, exec_effect h⟩
  | error e => rw [hd] at h; exact .inr ⟨⟨e, rfl⟩, raise_next h⟩

/-- CMD stands at offset 0 alone (R46). -/
theorem targetAt_cmd {off : Nat} (h : targetAt off = .cmd) : off = 0 := by
  unfold targetAt at h
  by_contra hne
  rw [if_neg hne] at h
  repeat' (split at h <;> try cases h)

/-- A step with a next state: idle, a reset, an access that is no command, or a write to CMD (R49, R50, R144, R150).
An access that is no command may write CTRL, CRC or one buffer byte, and keeps the buffers' form. -/
theorem step_effect {s t : State} (h : step s = .next t) :
    (s.pending = [] ∧ t = s) ∨
    (∃ cut rest, s.pending = .reset cut :: rest ∧ t = State.resetOf s.cfg rest) ∨
    (∃ a rest data enforce v tx rx, s.pending = .access a :: rest ∧
      t = { s with pending := rest, rdata := data, crcEnforce := enforce, crc := v, tx := tx, rx := rx } ∧
      (Memory.wf s.tx = true → Memory.wf tx = true) ∧ (Memory.wf s.rx = true → Memory.wf rx = true)) ∨
    (∃ rest w, s.pending = .access ⟨s.cfg.base, 4, .write w⟩ :: rest ∧
      runCommand w { s with pending := rest, rdata := none } = .next t) := by
  rcases step_cases h with h | h | ⟨off, rest, v, -, -, hp, -, ht⟩ | ⟨off, rest, w, -, -, hp, hw⟩
  · exact .inl h
  · exact .inr (.inl h)
  · exact .inr (.inr (.inl ⟨_, rest, some v, s.crcEnforce, s.crc, s.tx, s.rx, hp, ht, id, id⟩))
  · rcases writeTarget_cases hw with ⟨hg, hr⟩ | ⟨-, e⟩ | ⟨-, e⟩ | ⟨i, hg, e⟩ | ⟨i, hg, e⟩ | e
    · have := targetAt_cmd hg
      subst this
      exact .inr (.inr (.inr ⟨rest, w, hp, hr⟩))
    · exact .inr (.inr (.inl ⟨_, rest, none, _, s.crc, s.tx, s.rx, hp, e, id, id⟩))
    · exact .inr (.inr (.inl ⟨_, rest, none, s.crcEnforce, _, s.tx, s.rx, hp, e, id, id⟩))
    · exact .inr (.inr (.inl ⟨_, rest, none, s.crcEnforce, s.crc, _, s.rx, hp, e,
        fun hm => Memory.write_wf _ hm (targetAt_tx_lt hg), id⟩))
    · exact .inr (.inr (.inl ⟨_, rest, none, s.crcEnforce, s.crc, s.tx, _, hp, e, id,
        fun hm => Memory.write_wf _ hm (targetAt_rx_lt hg)⟩))
    · exact .inr (.inr (.inl ⟨_, rest, none, s.crcEnforce, s.crc, s.tx, s.rx, hp, e, id, id⟩))

end Sys2Proof.Machine
end

