-- ==== Sys2Proof/Laws/PerInstr.lean ====
section
/-! SUPPORT. Statements about each command as syntax, one lemma a constructor. -/

namespace Sys2Proof.Laws.EncodesToItsRow

/-- The word of a well-formed command is matched by a row of the opcode map, and that row gives the command back. -/
def Statement (i : Instr) : Prop :=
  i.WellFormed → ∃ r ∈ opTable, r.hits (encode i) = true ∧ r.command (encode i) = i

theorem nop : Statement .nop := fun _ => ⟨opTable[0], by simp [opTable], by decide, rfl⟩

theorem crcInit : Statement .crcInit := fun _ => ⟨opTable[1], by simp [opTable], by decide, rfl⟩

theorem crcByte (d : Nat) : Statement (.crcByte d) := fun h => by
  refine ⟨opTable[2], by simp [opTable], (hits_iff ..).mpr ?_, ?_⟩
  · exact (formatB_fixed 0x02#8 d).trans (by decide)
  · exact congrArg Instr.crcByte (dField_formatB _ (by simpa [Instr.WellFormed, Instr.wellFormed] using h))

theorem crcTx (s n : Nat) : Statement (.crcTx s n) := fun h => by
  have h' : s ≤ 511 ∧ n ≤ 511 := by simpa [Instr.WellFormed, Instr.wellFormed] using h
  refine ⟨opTable[3], by simp [opTable], (hits_iff ..).mpr ?_, ?_⟩
  · exact (formatR_fixed 0x03#8 s n).trans (by decide)
  · exact congrArg₂ Instr.crcTx (sField_formatR _ _ h'.1) (nField_formatR _ _ h'.2)

theorem crcRx (s n : Nat) : Statement (.crcRx s n) := fun h => by
  have h' : s ≤ 511 ∧ n ≤ 511 := by simpa [Instr.WellFormed, Instr.wellFormed] using h
  refine ⟨opTable[4], by simp [opTable], (hits_iff ..).mpr ?_, ?_⟩
  · exact (formatR_fixed 0x04#8 s n).trans (by decide)
  · exact congrArg₂ Instr.crcRx (sField_formatR _ _ h'.1) (nField_formatR _ _ h'.2)

theorem clrErr : Statement .clrErr := fun _ => ⟨opTable[5], by simp [opTable], by decide, rfl⟩

theorem buildCmd (n : Nat) : Statement (.buildCmd n) := fun h => by
  refine ⟨opTable[6], by simp [opTable], (hits_iff ..).mpr ?_, ?_⟩
  · exact (formatL_fixed 0x10#8 n).trans (by decide)
  · exact congrArg Instr.buildCmd (nField_formatL _ (by simpa [Instr.WellFormed, Instr.wellFormed] using h))

theorem buildQuery : Statement .buildQuery := fun _ => ⟨opTable[7], by simp [opTable], by decide, rfl⟩

theorem parse (n : Nat) : Statement (.parse n) := fun h => by
  refine ⟨opTable[8], by simp [opTable], (hits_iff ..).mpr ?_, ?_⟩
  · exact (formatL_fixed 0x20#8 n).trans (by decide)
  · exact congrArg Instr.parse (nField_formatL _ (by simpa [Instr.WellFormed, Instr.wellFormed] using h))

end Sys2Proof.Laws.EncodesToItsRow
end

