-- ==== Sys2Proof/Tests/Slice0.lean ====
section
/-! SUPPORT. Tests. Expected values come from spec/95_test_vectors.md (V and P numbers) and from the encodings of
spec/30_encoding.md, never from the model. Then, for each statement with hypotheses, a state and operands that meet
them, each clause at the ends of its range. -/

namespace Sys2Proof.Machine

/-! ### Helpers -/

/-- Whether the answer is a next state with the property. -/
def answers (o : Answer) (p : State → Bool) : Bool :=
  match o with
  | .next t => p t
  | .fault _ => false
  | .refused _ => false

/-- Whether the answer is this fault. -/
def faults (o : Answer) (f : Fault) : Bool :=
  match o with
  | .next _ => false
  | .fault g => g == f
  | .refused _ => false

/-- Whether the answer is this refusal. -/
def refuses (o : Answer) (r : Refusal) : Bool :=
  match o with
  | .next _ => false
  | .fault _ => false
  | .refused q => q == r

/-- Whether the word is rejected. -/
def illegalWord (w : Word) : Bool :=
  match decode w with
  | .ok _ => false
  | .error _ => true

/-- One step that writes the word to CMD. -/
def cmd (w : Word) (s : State) : Answer := step (s.setPending [.access (wr s.cfg 0x000 w)])

/-- One step that reads at the offset. -/
def look (off : Nat) (s : State) : Answer := step (s.setPending [.access (rd s.cfg off)])

/-- One step that writes the word at the offset. -/
def put (off : Nat) (v : Word) (s : State) : Answer := step (s.setPending [.access (wr s.cfg off v)])

/-- Reset with bytes loaded into TX from an index on. -/
def withTx (i : Nat) (bs : List Byte) : State := State.reset.setTx (Memory.writeAll [] i bs)

/-- Reset with a datagram loaded into RX from index 0 on. -/
def withRx (bs : List Byte) : State := State.reset.setRx (Memory.writeAll [] 0 bs)

/-- Whether a buffer holds these bytes from an index on. -/
def holds (m : Memory) (i : Nat) (bs : List Byte) : Bool :=
  match readRange .tx m i bs.length with
  | .ok xs => xs == bs
  | .error _ => false

/-- The 9 bytes "123456789" of V2.14. -/
def digitBytes : List Byte := [0x31#8, 0x32#8, 0x33#8, 0x34#8, 0x35#8, 0x36#8, 0x37#8, 0x38#8, 0x39#8]

/-- The frame V3.3. -/
def frame33 : List Byte := [0xCA#8, 0xFE#8, 0x01#8, 0x03#8, 0x01#8, 0x02#8, 0x03#8, 0x35#8, 0x36#8]

/-- The frame V3.4. -/
def frame34 : List Byte := [0xCA#8, 0xFE#8, 0x01#8, 0x04#8, 0x4F#8, 0x42#8, 0x4F#8, 0x54#8, 0xB4#8, 0x99#8]

/-- The datagram of V4.9. -/
def frame49 : List Byte := [0xCA#8, 0xFE#8, 0x01#8, 0x03#8, 0x01#8, 0xFD#8, 0x03#8, 0x35#8, 0x36#8]

theorem exists_next_of_answers {o : Answer} {p : State → Bool} (h : answers o p = true) :
    ∃ t, o = .next t ∧ p t = true := by
  cases o with
  | next t => exact ⟨t, rfl, h⟩
  | fault f => cases h
  | refused r => cases h

theorem holds_of_holds {m : Memory} {i : Nat} {bs : List Byte} (h : holds m i bs = true) : Holds m i bs := by
  unfold holds at h
  cases hr : readRange .tx m i bs.length with
  | error f => rw [hr] at h; cases h
  | ok xs =>
    rw [hr] at h
    have := eq_of_beq h
    subst this
    exact ((readRange_ok_iff ..).mp hr).2

/-! ### WellFormed refuses each ill-formed operand (R76) -/

theorem test_wf_crcByte : Instr.wellFormed (.crcByte 256) = false ∧ Instr.wellFormed (.crcByte 255) = true := by decide
theorem test_wf_crcTx_s : Instr.wellFormed (.crcTx 512 0) = false := by decide
theorem test_wf_crcTx_n : Instr.wellFormed (.crcTx 0 512) = false := by decide
theorem test_wf_crcRx_s : Instr.wellFormed (.crcRx 512 0) = false := by decide
theorem test_wf_crcRx_n : Instr.wellFormed (.crcRx 0 512) = false := by decide
theorem test_wf_buildCmd : Instr.wellFormed (.buildCmd 512) = false ∧ Instr.wellFormed (.buildCmd 511) = true := by
  decide
theorem test_wf_parse : Instr.wellFormed (.parse 512) = false ∧ Instr.wellFormed (.parse 300) = true := by decide
theorem test_wf_base : Config.wf { Config.default with base := 0x4001 } = false := by decide

/-! ### Decoding: each word field by field from R67 to R70 and R72 -/

theorem test_decode_nop : decode (0b00000000#8 ++ 0b000000000000000000000000#24) = .ok .nop := by decide +kernel
theorem test_decode_crcInit : decode (0b00000001#8 ++ 0b000000000000000000000000#24) = .ok .crcInit := by
  decide +kernel
theorem test_decode_crcByte : decode (0b00000010#8 ++ 0b0000000000000000#16 ++ 0b10101011#8) = .ok (.crcByte 0xAB) := by
  decide +kernel
theorem test_decode_crcTx :
    decode (0b00000011#8 ++ 0b000#3 ++ 0b000000100#9 ++ 0b000#3 ++ 0b000000101#9) = .ok (.crcTx 4 5) := by decide +kernel
theorem test_decode_crcRx :
    decode (0b00000100#8 ++ 0b000#3 ++ 0b100000000#9 ++ 0b000#3 ++ 0b011111110#9) = .ok (.crcRx 256 254) := by
  decide +kernel
theorem test_decode_clrErr : decode (0b00001111#8 ++ 0b000000000000000000000000#24) = .ok .clrErr := by decide +kernel
theorem test_decode_buildCmd : decode (0b00010000#8 ++ 0b000000000000000#15 ++ 0b011111110#9) = .ok (.buildCmd 254) := by
  decide +kernel
theorem test_decode_buildQuery : decode (0b00010001#8 ++ 0b000000000000000000000000#24) = .ok .buildQuery := by
  decide +kernel
theorem test_decode_parse : decode (0b00100000#8 ++ 0b000000000000000#15 ++ 0b100000101#9) = .ok (.parse 261) := by
  decide +kernel

/-- V5.5 to V5.14, and the ends of R73's opcode ranges. -/
theorem test_decode_illegal :
    [0x05000000#32, 0xFF000000#32, 0x00000001#32, 0x01000001#32, 0x02000100#32, 0x03000200#32, 0x0F000001#32,
      0x10800003#32, 0x11000001#32, 0x20000200#32, 0x0E000000#32, 0x12000000#32, 0x1F000000#32,
      0x21000000#32].all illegalWord = true := by decide +kernel

/-- The words of V2.27 to V2.36, V3.5 and V4.12, from the assembler's text (R76). -/
theorem test_assemble_text :
    assembleText "nop" = some 0x00000000#32 ∧ assembleText "crc.init" = some 0x01000000#32 ∧
    assembleText "crc.byte 0xAB" = some 0x020000AB#32 ∧ assembleText "crc.tx 261, 1" = some 0x03105001#32 ∧
    assembleText "crc.rx 252, 9" = some 0x040FC009#32 ∧ assembleText "clr.err" = some 0x0F000000#32 ∧
    assembleText "build.cmd 254" = some 0x100000FE#32 ∧ assembleText "build.query" = some 0x11000000#32 ∧
    assembleText "parse 261" = some 0x20000105#32 := by decide +kernel

/-- What the assembler of R76 rejects. -/
theorem test_assemble_text_rejects :
    assembleText "crc.byte 256" = none ∧ assembleText "crc.tx 512, 0" = none ∧ assembleText "crc.rx 0, 512" = none ∧
    assembleText "parse 512" = none ∧ assembleText "parse" = none ∧ assembleText "jump 1" = none := by decide +kernel

/-! ### The generator (V2) -/

theorem test_crc_catalogue : checksum Config.default digitBytes = 0x29B1#16 := by decide +kernel

/-- V2.25: reflection on both sides and a final XOR; raw and checksum differ. -/
theorem test_crc_x25 :
    (let c := { Config.default with refin := true, refout := true, xorout := 0xFFFF#16 }
     raw c digitBytes = 0x89F6#16 ∧ checksum c digitBytes = 0x906E#16) := by decide +kernel

/-! ### Commands, each one CMD write -/

/-- V5.2: NOP after STATUS 0x13 leaves 0x10. -/
theorem test_nop :
    answers (cmd 0x00000000#32 (State.reset.setStatus (Status.reset.failed .tooLarge)))
      (fun t => t.status.word == 0x10#32) = true := by decide +kernel

/-- V2.27 -/
theorem test_crcInit :
    answers (cmd 0x01000000#32 (State.reset.setCrc 0x1234#16))
      (fun t => t.crc == 0xFFFF#16 && t.status.word == 0x00#32) = true := by decide +kernel

/-- V2.28 -/
theorem test_crcByte :
    answers (cmd 0x020000AB#32 (State.reset.setCrc 0x1234#16))
      (fun t => t.crc == 0x02F2#16 && t.status.word == 0x00#32) = true := by decide +kernel

/-- The second command of V2.29, from the raw CRC of "1234" (2.1). -/
theorem test_crcTx :
    answers (cmd 0x03004005#32 ((withTx 0 digitBytes).setCrc 0x5349#16)) (fun t => t.crc == 0x29B1#16) = true := by
  decide +kernel

/-- V2.33 -/
theorem test_crcTx_badRange :
    answers (cmd 0x03105001#32 State.reset) (fun t => t.status.word == 0x12#32 && t.crc == 0xFFFF#16) = true := by
  decide +kernel

/-- V2.30 -/
theorem test_crcRx :
    answers (cmd 0x040FC009#32 (State.reset.setRx (Memory.writeAll [] 252 digitBytes)))
      (fun t => t.crc == 0x29B1#16 && t.status.word == 0x00#32) = true := by decide +kernel

/-- V2.35 -/
theorem test_crcRx_badRange :
    answers (cmd 0x041FF1FF#32 State.reset) (fun t => t.status.word == 0x12#32) = true := by decide +kernel

/-- V5.4: CLR_ERR keeps CRC_MM. -/
theorem test_clrErr :
    answers (cmd 0x0F000000#32 (State.reset.setStatus
        { result := .crcMismatch, err := true, crcMm := true, isQuery := false, rxOk := false }))
      (fun t => t.status.word == 0x20#32) = true := by decide +kernel

/-- V3.3 -/
theorem test_buildCmd :
    answers (cmd 0x10000003#32 (withTx 4 [0x01#8, 0x02#8, 0x03#8]))
      (fun t => holds t.tx 0 frame33 && t.txLen == 9#9 && t.crc == 0x3536#16 && t.status.word == 0x00#32) = true := by
  decide +kernel

/-- V3.13: P_WIRE_ORDER = LE. -/
theorem test_buildCmd_le :
    answers (cmd 0x10000003#32
        { withTx 4 [0x01#8, 0x02#8, 0x03#8] with cfg := { Config.default with order := .le } })
      (fun t => holds t.tx 0 [0xFE#8, 0xCA#8, 0x01#8, 0x03#8, 0x01#8, 0x02#8, 0x03#8, 0x50#8, 0x84#8] &&
        t.crc == 0x8450#16) = true := by decide +kernel

/-- V3.4 -/
theorem test_buildQuery :
    answers (cmd 0x11000000#32 State.reset)
      (fun t => holds t.tx 0 frame34 && t.txLen == 10#9 && t.crc == 0xB499#16 && t.status.word == 0x00#32) = true := by
  decide +kernel

/-- V4.17 -/
theorem test_parse_query :
    answers (cmd 0x2000000A#32 (withRx frame34))
      (fun t => t.status.word == 0xC0#32 && t.rxPlen == 4#8 && t.rxKind == 0x01#8 && t.rxCalc == 0xB499#16 &&
        t.rxRecv == 0xB499#16 && t.crc == 0xB499#16) = true := by decide +kernel

/-- V4.9 -/
theorem test_parse_mismatch :
    answers (cmd 0x20000009#32 (withRx frame49))
      (fun t => t.status.word == 0x36#32 && t.rxPlen == 3#8 && t.rxKind == 0x01#8 && t.rxCalc == 0x36C9#16 &&
        t.rxRecv == 0x3536#16 && t.crc == 0x36C9#16) = true := by decide +kernel

/-- V5.12: an illegal word; TX and TX_LEN stay. -/
theorem test_illegal :
    answers (cmd 0x10800003#32 (withTx 4 [0x01#8, 0x02#8, 0x03#8]))
      (fun t => t.status.word == 0x11#32 && Memory.read t.tx 0 == none && t.txLen == 0#9) = true := by decide +kernel

/-! ### The bus and reset (V6, V7) -/

/-- V6.6: only bit 0 of CTRL is stored. -/
theorem test_put_ctrl : answers (put 0x008 0xFFFFFFFE#32 State.reset) (fun t => t.crcEnforce == false) = true := by
  decide +kernel

/-- V6.10 and V6.11: one byte a word, at the ends of both buffers. -/
theorem test_put_bytes :
    answers (put 0x1000 0x000001FF#32 State.reset) (fun t => Memory.read t.tx 0 == some 0xFF#8) = true ∧
    answers (put 0x2410 0x5A#32 State.reset) (fun t => Memory.read t.rx 260 == some 0x5A#8) = true := by decide +kernel

/-- V6.13 and V6.14 -/
theorem test_look :
    answers (look 0x3FFC State.reset) (fun t => t.rdata == some 0#32) = true ∧
    faults (look (0x1000 + 4 * 5) State.reset) (.unwrittenByte .tx 5) = true := by decide +kernel

/-- U7: a halfword access is refused. -/
theorem test_narrow :
    refuses (step (State.reset.setPending [.access ⟨0x1000, 2, .read⟩])) (.unsupportedWidth 2) = true := by decide +kernel

/-- V7.2: the write of build.cmd 3 that a reset cuts short leaves nothing. -/
theorem test_reset_cuts :
    answers (step ((withTx 4 [0x01#8, 0x02#8, 0x03#8]).setPending
        [.reset (some (wr Config.default 0x000 0x10000003#32))]))
      (fun t => t.txLen == 0#9 && t.tx == [] && t.crc == 0xFFFF#16 && t.crcEnforce) = true := by decide +kernel

/-! ### Witnesses: states and operands that meet the statements' hypotheses -/

/-- The first `n` bytes of both buffers written. -/
def filledTo (n : Nat) : State :=
  (withTx 0 (List.replicate n 0#8)).setRx (Memory.writeAll [] 0 (List.replicate n 0#8))

theorem read_filledTo {n k : Nat} (h : k < n) :
    Memory.read (filledTo n).tx k = some 0#8 ∧ Memory.read (filledTo n).rx k = some 0#8 := by
  have hr : Memory.read (Memory.writeAll [] 0 (List.replicate n 0#8)) k = some 0#8 := by
    rw [Memory.read_writeAll, if_pos ⟨Nat.zero_le k, by rw [List.length_replicate]; omega⟩]
    exact List.getElem?_replicate_of_lt h
  exact ⟨hr, hr⟩

theorem holds_withTx (i : Nat) (bs : List Byte) : Holds (withTx i bs).tx i bs := Holds_writeAll _ _ _

theorem holds_withRx (bs : List Byte) : Holds (withRx bs).rx 0 bs := Holds_writeAll _ _ _

/-- EveryCommandCompletesOnWrittenBuffers: all 261 bytes of both buffers are there. -/
theorem witness_filled : FullyWritten (filledTo bufSize) :=
  fun _ hk => ⟨⟨_, (read_filledTo hk).1⟩, _, (read_filledTo hk).2⟩

/-- CommandsChangeOnlyTheirOwnState, CommandsStopOnlyOnUnwrittenBytes: a command of each shape completes. -/
theorem witness_commands_complete :
    [Instr.nop, .crcInit, .crcByte 255, .crcTx 0 9, .crcRx 261 0, .clrErr, .buildCmd 5, .buildQuery, .parse 9].all
      (fun i => answers (exec i ((withTx 0 frame33).setRx (Memory.writeAll [] 0 frame33))) fun _ => true) = true := by
  decide +kernel

/-- DecodeInvertsEncode, CrcByteFeedsOneByte, PseudoInstructionsExpand: well-formed commands at the operands' ends. -/
theorem witness_wellFormed :
    [Instr.nop, .crcByte 0, .crcByte 255, .crcTx 0 511, .crcTx 511 0, .crcRx 511 511, .buildCmd 511,
      .parse 511].all Instr.wellFormed = true := by decide

/-- EncodeInvertsDecode, OpcodeMapIsExact: words of the table's first and last rows with operands at both ends. -/
theorem witness_decodes : decode 0x02000000#32 = .ok (.crcByte 0) ∧ decode 0x020000FF#32 = .ok (.crcByte 255) ∧
    decode 0x041FF1FF#32 = .ok (.crcRx 511 511) ∧ decode 0x200001FF#32 = .ok (.parse 511) := by decide +kernel

/-- OneRowMatchesOrIllegal: a word a row matches, and a word none matches. -/
theorem witness_rows : (∃ r, opTable[3]? = some r ∧ 0x03105001#32 &&& r.mask = r.value) ∧
    ∀ r ∈ opTable, 0x05000000#32 &&& r.mask ≠ r.value := by
  refine ⟨⟨_, rfl, by decide⟩, ?_⟩
  simp only [opTable, List.forall_mem_cons]
  decide

/-- IllegalEncodingsAreUnlistedOrReserved, IllegalWordChangesStatusOnly, and the reserved-bit clauses of
NopSetsResultOnly, ClrErrClearsErrOnly, CrcInitLoadsInit, CrcByteFeedsOneByte and BuildQuerySerializesTheTag: a rejected
word of each shape. -/
theorem witness_illegal :
    decode 0x05000000#32 = .error .unknownOpcode ∧ decode 0x00000001#32 = .error .reservedBits ∧
    decode 0x01000001#32 = .error .reservedBits ∧ decode 0x02000100#32 = .error .reservedBits ∧
    decode 0x0F800000#32 = .error .reservedBits ∧ decode 0x11000001#32 = .error .reservedBits := by decide +kernel

/-- PseudoInstructionsExpand, CrcTxFeedsRange, CrcRxFeedsRange and FeedingInPiecesIsFeedingWhole: a range that ends at
the buffer's end and stands written, a range past the end, and an unwritten byte in a range. -/
theorem witness_ranges :
    Holds (withTx 252 digitBytes).tx 252 digitBytes ∧ Holds (withTx 252 digitBytes |>.tx) 261 [] ∧
    252 + digitBytes.length = 261 ∧ Memory.read (withTx 252 digitBytes).tx (251 + 0) = none := by
  refine ⟨holds_of_holds (by decide +kernel), holds_of_holds (by decide +kernel), by decide, by decide +kernel⟩

/-- CrcTxFeedsRange and CrcRxFeedsRange: an unwritten byte at the start (251), past nine written ones (RX 9), and at the end (260) of a range that ends at
the buffer's end; the fault names it. -/
theorem witness_unwritten_in_range :
    251 + 10 ≤ 261 ∧ 0 < 10 ∧ Memory.read (withTx 252 digitBytes).tx (251 + 0) = none ∧
    faults (exec (.crcTx 251 10) (withTx 252 digitBytes)) (.unwrittenByte .tx 251) = true ∧
    Memory.read (withRx digitBytes).rx (0 + 9) = none ∧
    faults (exec (.crcRx 0 10) (withRx digitBytes)) (.unwrittenByte .rx 9) = true ∧
    252 + 9 ≤ 261 ∧ 8 < 9 ∧ Memory.read (Memory.writeAll [] 252 (digitBytes.take 8)) (252 + 8) = none ∧
    faults (exec (.crcTx 252 9) (withTx 252 (digitBytes.take 8))) (.unwrittenByte .tx 260) = true ∧
    faults (exec (.crcRx 252 9) (State.reset.setRx (Memory.writeAll [] 252 (digitBytes.take 8))))
      (.unwrittenByte .rx 260) = true := by decide +kernel

/-- FeedingInPiecesIsFeedingWhole: the whole range completes, and the bus write of CRC has a next state. -/
theorem witness_pieces :
    (∃ t, exec (.crcTx 252 (4 + 5)) (withTx 252 digitBytes) = .next t) ∧
    (∃ t, exec (.crcRx 0 (4 + 5)) (withRx digitBytes) = .next t) ∧
    ∃ t, step (State.reset.setPending [.access ⟨State.reset.cfg.base + 0x00C, 4, .write 0xC782#32⟩]) = .next t :=
  ⟨(exists_next_of_answers (p := fun _ => true) (by decide +kernel)).imp fun _ h => h.1,
    (exists_next_of_answers (p := fun _ => true) (by decide +kernel)).imp fun _ h => h.1,
    (exists_next_of_answers (p := fun _ => true) (by decide +kernel)).imp fun _ h => h.1⟩

/-- FrameWithTrailerLeavesZero: the default profile meets its hypotheses. -/
theorem witness_default_profile : Config.default.refin = false ∧ Config.default.refout = false ∧
    Config.default.xorout = 0#16 ∧ Config.default.order = .be := by decide

/-- FrameLayout: payloads at both ends of the range. -/
theorem witness_payload_lengths : ([] : List Byte).length ≤ 255 ∧ (List.replicate 255 (0#8 : Byte)).length ≤ 255 := by
  decide +kernel

/-- CmdWriteRunsDecodedCommand and BusWriteActsByOffset at offset 0: a decoded and a rejected word. -/
theorem witness_cmd_write :
    answers (cmd 0x020000FF#32 State.reset) (fun t => t.crc == 0xFF00#16) = true ∧
    answers (cmd 0xFF000000#32 State.reset) (fun t => t.status.word == 0x11#32) = true ∧
    answers (look 0x000 State.reset) (fun t => t.rdata == some 0#32) = true := by decide +kernel

/-- PlacedWordIsRunNext: a table word the decoder accepts, run as the first command after reset. -/
theorem witness_placed_word : decodeTableWord 32 0x020000FF = some (.crcByte 0xFF) ∧
    answers (step (State.reset.withFetchWord 32 0x020000FF)) (fun t => t.crc == 0xFF00#16) = true := by decide +kernel

/-- BusReadReturnsAddressedValue and ReservedReadsZeroAndIgnoresWrites: each register (V6.1 to V6.5), the buffers' ends
written and unwritten, the reserved ranges' ends. -/
theorem witness_reads :
    answers (look 0x004 State.reset) (fun t => t.rdata == some 0#32) = true ∧
    answers (look 0x008 State.reset) (fun t => t.rdata == some 1#32) = true ∧
    answers (look 0x00C State.reset) (fun t => t.rdata == some 0xFFFF#32) = true ∧
    answers (look 0x010 State.reset) (fun t => t.rdata == some 0xFFFF#32) = true ∧
    [0x014, 0x018, 0x01C, 0x020, 0x024, 0x0028, 0x0FFC, 0x1414, 0x1FFC, 0x2414, 0x3FFC].all
      (fun off => answers (look off State.reset) fun t => t.rdata == some 0#32) = true ∧
    answers (look 0x1000 (withTx 0 [0x5A#8])) (fun t => t.rdata == some 0x5A#32) = true ∧
    answers (look 0x1410 (withTx 260 [0x5A#8])) (fun t => t.rdata == some 0x5A#32) = true ∧
    answers (look 0x2000 (withRx [0x5A#8])) (fun t => t.rdata == some 0x5A#32) = true ∧
    answers (look 0x2410 (State.reset.setRx [(260, 0x5A#8)])) (fun t => t.rdata == some 0x5A#32) = true ∧
    faults (look 0x1410 State.reset) (.unwrittenByte .tx 260) = true ∧
    faults (look 0x2000 State.reset) (.unwrittenByte .rx 0) = true := by decide +kernel

/-- BusWriteActsByOffset and ReservedReadsZeroAndIgnoresWrites: V6.7, the buffers' other ends, read-only registers
(V6.8, V6.9), reserved offsets (V6.12), and the refused accesses at the window's ends. -/
theorem witness_writes :
    answers (put 0x00C 0xABCD1234#32 State.reset) (fun t => t.crc == 0x1234#16) = true ∧
    answers (put 0x1410 0x100#32 State.reset) (fun t => Memory.read t.tx 260 == some 0#8) = true ∧
    answers (put 0x2000 7#32 State.reset) (fun t => Memory.read t.rx 0 == some 7#8) = true ∧
    [0x004, 0x010, 0x014, 0x018, 0x01C, 0x020, 0x024, 0x0028, 0x0FFC, 0x1414, 0x1FFC, 0x2414, 0x3FFC].all
      (fun off => answers (put off 0xFFFFFFFF#32 State.reset) fun t => t == State.reset) = true ∧
    refuses (step (State.reset.setPending [.access ⟨0x0000, 1, .write 0#32⟩])) (.unsupportedWidth 1) = true ∧
    refuses (step (State.reset.setPending [.access ⟨0x3FFF, 4, .read⟩])) (.misaligned 0x3FFF) = true := by decide +kernel

/-- ReservedReadsZeroAndIgnoresWrites: two words that agree in CTRL's and in CRC's stored bits. -/
theorem witness_ignored_bits : (0xFFFFFFFF#32).getLsbD 0 = (1#32).getLsbD 0 ∧
    (0xABCD1234#32).extractLsb' 0 16 = (0x1234#32).extractLsb' 0 16 := by decide

/-- ReadsAndDataWritesAreIdempotent: a read and a write, each pending twice, with a next state. -/
theorem witness_twice :
    answers (step ((withRx [0x5A#8]).setPending [.access ⟨0x2000, 4, .read⟩, .access ⟨0x2000, 4, .read⟩]))
      (fun t => t.pending.length == 1) = true ∧
    answers (step (State.reset.setPending [.access ⟨0x1410, 4, .write 7#32⟩, .access ⟨0x1410, 4, .write 7#32⟩]))
      (fun t => t.pending.length == 1) = true ∧
    answers (step (State.reset.setPending [.access ⟨0x0000, 4, .write (encode (.crcByte 255))⟩,
      .access ⟨0x0000, 4, .write (encode (.crcByte 255))⟩])) (fun t => t.pending.length == 1) = true := by decide +kernel

/-- OutsideWindowFaults: one byte below and one past the window. -/
theorem witness_outside :
    faults (step ({ State.reset with cfg := { Config.default with base := 0x4000 } }.setPending
      [.access ⟨0x3FFF, 4, .read⟩])) (.outsideWindow 0x3FFF) = true ∧
    faults (step (State.reset.setPending [.access ⟨0x4000, 4, .read⟩])) (.outsideWindow 0x4000) = true := by decide +kernel

/-- IdleBlockHoldsItsState, StepTakesTheOldestEvent, ConfigurationIsFixed, ResetEdgeGivesResetValues: an idle state, and
a reset edge with an access behind it. -/
theorem witness_steps : State.reset.pending = [] ∧
    answers (step ((withTx 0 frame33).setPending [.reset none, .access ⟨0, 4, .read⟩]))
      (fun t => t.pending == [.access ⟨0, 4, .read⟩] && t.tx == []) = true := by decide +kernel

/-- BuildCmdSerializesThePayload, BuiltFramesParseBack: payloads of 0 and of 254 bytes that stand in TX, an unwritten
one, and the lengths 255 and 511 of OversizedPayloadIsTooLarge. -/
theorem witness_payloads :
    Holds State.reset.tx 4 [] ∧ Holds (withTx 4 (List.replicate 254 0#8)).tx 4 (List.replicate 254 0#8) ∧
    Memory.read (withTx 4 [0x01#8, 0x02#8, 0x03#8]).tx (4 + 3) = none ∧ 255 ≤ 511 :=
  ⟨holds_of_holds (by decide +kernel), holds_withTx _ _, by decide +kernel, by decide⟩

/-- BuiltFramesParseBack: RX holds what BUILD_CMD left, and PARSE accepts it (V4.1). -/
theorem witness_round_trip :
    answers (exec (.parse 9) (withRx frame33)) (fun t => t.status.word == 0x80#32 && t.rxPlen == 3#8) = true ∧
    holds (withRx frame33).rx 0 (frame Config.default [0x01#8, 0x02#8, 0x03#8]) = true := by decide +kernel

/-- ParseChecksTheDatagram, FramingErrorsLeaveNoResult, ParseForgetsEarlierResults: V4.14, V4.3, V4.2, an unwritten first and second byte, V4.6, a
wrong first byte, unwritten third and fourth bytes, V4.4, V4.19. -/
theorem witness_parse_cases :
    answers (exec (.parse 262) (withRx frame33)) (fun t => t.status.word == 0x12#32) = true ∧
    answers (exec (.parse 0) State.reset) (fun t => t.status.word == 0x14#32) = true ∧
    answers (exec (.parse 3) (withRx frame33)) (fun t => t.status.word == 0x14#32) = true ∧
    faults (exec (.parse 4) State.reset) (.unwrittenByte .rx 0) = true ∧
    faults (exec (.parse 4) (withRx [0xCA#8])) (.unwrittenByte .rx 1) = true ∧
    answers (exec (.parse 9) (withRx [0xCA#8, 0xFF#8])) (fun t => t.status.word == 0x15#32) = true ∧
    answers (exec (.parse 261) (withRx [0xFE#8, 0xCA#8])) (fun t => t.status.word == 0x15#32) = true ∧
    faults (exec (.parse 9) (withRx [0xCA#8, 0xFE#8])) (.unwrittenByte .rx 2) = true ∧
    faults (exec (.parse 9) (withRx [0xCA#8, 0xFE#8, 0x01#8])) (.unwrittenByte .rx 3) = true ∧
    answers (exec (.parse 8) (withRx frame33)) (fun t => t.status.word == 0x14#32 && t.rxPlen == 3#8) = true ∧
    faults (exec (.parse 9) (withRx [0xCA#8, 0xFE#8, 0x01#8, 0x03#8, 0x01#8, 0x02#8])) (.unwrittenByte .rx 6) = true := by
  decide +kernel

/-- ParseChecksTheDatagram, ChecksumPolicyFollowsEnforce, QueryFlagMeansTagPayload: V4.9 and V4.10, and a tag
payload in TX. -/
theorem witness_checksum_cases :
    answers (exec (.parse 9) (withRx frame49)) (fun t => t.status.word == 0x36#32) = true ∧
    answers (exec (.parse 9) ((withRx frame49).setCrcEnforce false)) (fun t => t.status.word == 0xA0#32) = true ∧
    holds (withTx 4 [0x4F#8, 0x42#8, 0x4F#8, 0x54#8]).tx 4 Config.default.qtag.toList = true := by decide +kernel

/-- ParseChecksTheDatagram at the largest length: the bytes of V4.12, L = 255 (a payload of zeros is one such
`p`), fill RX. -/
theorem witness_largest_datagram (p : List Byte) (h : p.length = 255) :
    p.length = (0xFF#8 : Byte).toNat ∧ 6 + (0xFF#8 : Byte).toNat ≤ 261 ∧
    Holds (withRx ([0xCA#8, 0xFE#8, 0x01#8, 0xFF#8] ++ (p ++ [0xEA#8, 0xCE#8]))).rx 4 (p ++ [0xEA#8, 0xCE#8]) :=
  ⟨h, by decide, ((Holds_append ..).mp (holds_withRx _)).2⟩

/-- TrailingBytesAreIgnored: V4.16, with another contents past the trailer. -/
theorem witness_trailing :
    Memory.read (withRx (frame33 ++ [0xAA#8, 0xBB#8])).rx 3 = some 3#8 ∧
    answers (exec (.parse 11) (withRx (frame33 ++ [0xAA#8, 0xBB#8]))) (fun t => t.status.word == 0x80#32) = true ∧
    (List.range 9).all (fun k =>
      Memory.read (withRx frame33).rx k == Memory.read (withRx (frame33 ++ [0xAA#8, 0xBB#8])).rx k) = true := by
  decide +kernel

/-- OnlyParseOrResetWritesReceiveResults: a step that changes RX_PLEN (V4.1). -/
theorem witness_results_change :
    answers (cmd 0x20000009#32 (withRx frame33)) (fun t => t.rxPlen != State.reset.rxPlen) = true := by decide +kernel

/-- ErrIsSticky, OperandErrorsChangeStatusOnly: commands that end ILLEGAL, BAD_RANGE and TOO_LARGE, and a step that
clears ERR (V5.3). -/
theorem witness_errors :
    answers (runCommand 0x05000000#32 State.reset) (fun t => t.status.result == .illegal) = true ∧
    answers (runCommand 0x20000106#32 State.reset) (fun t => t.status.result == .badRange) = true ∧
    answers (runCommand 0x100000FF#32 State.reset) (fun t => t.status.result == .tooLarge) = true ∧
    answers (cmd 0x0F000000#32 (State.reset.setStatus (Status.reset.failed .tooLarge))) (fun t => !t.status.err) = true := by
  decide +kernel

/-- EveryStepKeepsTheInvariant: a state other than reset that meets the invariant and has a next state. -/
theorem witness_invariant : State.Inv ((withRx frame33).setPending [.reset none]) ∧
    answers (step ((withRx frame33).setPending [.reset none])) (fun _ => true) = true := by
  refine ⟨⟨by decide, by decide, by decide +kernel, .inl rfl, by decide, by decide, by decide, by decide, by decide⟩, ?_⟩
  decide +kernel

end Sys2Proof.Machine
end

section
/-! PROOFS. The configuration along a step, and the two byte orders of the wire. -/

namespace Sys2Proof.Machine

/-- No command writes an elaboration parameter (R6). -/
theorem Effect.cfg_eq {s t : State} {i : Instr} (h : Effect s i t) : t.cfg = s.cfg := by
  cases h <;> rfl

/-- Whatever word is written to CMD, running it writes no elaboration parameter (R6, R66). -/
theorem runCommand_cfg {w : Word} {s t : State} (h : runCommand w s = .next t) : t.cfg = s.cfg := by
  rcases runCommand_effect h with ⟨i, -, he⟩ | ⟨-, rfl⟩
  · exact he.cfg_eq
  · rfl

/-- Settles O50, by what a step can do: idle, a reset to the same configuration, an access that is no command, or a
command word. -/
theorem configurationIsFixed : Obligations.ConfigurationIsFixed := by
  intro s t h
  rcases step_effect h with ⟨-, rfl⟩ | ⟨cut, rest, -, rfl⟩ | ⟨a, rest, data, enforce, v, tx, rx, -, rfl, -⟩ |
    ⟨rest, w, -, hw⟩
  · rfl
  · exact State.resetOf_cfg s.cfg rest
  · rfl
  · exact (runCommand_cfg hw :)

/-- W16 under LE has the two bytes of W16 under BE in the other order (R10). -/
theorem w16_le (v : Half) : w16 .le v = (w16 .be v).swap := rfl

/-- R16 under LE reads the two bytes of R16 under BE in the other order (R10). -/
theorem r16_le (b0 b1 : Byte) : r16 .le b0 b1 = r16 .be b1 b0 := rfl

/-- The value of two bytes on a BE wire, the first the more significant (R10). -/
theorem r16_be_toNat (b0 b1 : Byte) : (r16 .be b0 b1).toNat = b0.toNat * 256 + b1.toNat := by
  have h : (r16 .be b0 b1).toNat = b0.toNat <<< 8 ||| b1.toNat := BitVec.toNat_append b0 b1
  rw [h, ← Nat.shiftLeft_add_eq_or_of_lt b1.isLt, Nat.shiftLeft_eq]

theorem r16_w16 (o : WireOrder) (v : Half) : r16 o (w16 o v).1 (w16 o v).2 = v := by
  have be : r16 .be (w16 .be v).1 (w16 .be v).2 = v :=
    (BitVec.extractLsb'_append_extractLsb'_eq_extractLsb' (by decide)).trans BitVec.extractLsb'_eq_self
  cases o with
  | be => exact be
  | le => exact be

theorem w16_r16 (o : WireOrder) (b0 b1 : Byte) : w16 o (r16 o b0 b1) = (b0, b1) := by
  have be (b0 b1 : Byte) : w16 .be (r16 .be b0 b1) = (b0, b1) :=
    Prod.ext BitVec.extractLsb'_append_eq_left BitVec.extractLsb'_append_eq_right
  cases o with
  | be => exact be b0 b1
  | le => rw [w16_le, r16_le, be, Prod.swap_prod_mk]

/-- The bytes of W16 under BE weigh up to the value, the first by 256 (R10). -/
theorem w16_be_toNat (v : Half) : (w16 .be v).1.toNat * 256 + (w16 .be v).2.toNat = v.toNat := by
  rw [← r16_be_toNat, r16_w16]

/-- Settles O33: W16 and R16 are inverses in either order, and LE is BE with the bytes swapped. -/
theorem wireOrderRoundTrips : Obligations.WireOrderRoundTrips :=
  ⟨fun v => ⟨w16_be_toNat v, w16_be_toNat v⟩, r16_w16, w16_r16⟩

end Sys2Proof.Machine
end

section
/-! PROOFS. The invariant: it holds after every reset, and every access and every command keeps it. -/

namespace Sys2Proof.Machine

/-- Right after a reset the invariant asks only that the block is placed at an aligned address. -/
theorem resetOf_inv {c : Config} (hc : c.wf = true) (rest : List BusEvent) : (State.resetOf c rest).Inv where
  base_aligned := hc
  tx_wf := Memory.wf_nil
  rx_wf := Memory.wf_nil
  tx_len_range := .inl rfl
  failure_sets_err := fun hr => absurd rfl hr
  crc_mm_iff := ⟨nofun, fun hne => absurd rfl hne⟩
  query_len := nofun
  rx_ok_result := nofun
  mismatch_result := nofun

/-- The host's side, CTRL, CRC.VALUE and the contents of buffers in canonical form are free in the invariant. -/
theorem State.Inv.access {s : State} (h : s.Inv) (pending : List BusEvent) (data : Option Word) (enforce : Bool)
    (v : Half) {tx rx : Memory} (htx : Memory.wf tx = true) (hrx : Memory.wf rx = true) :
    State.Inv { s with pending := pending, rdata := data, crcEnforce := enforce, crc := v, tx := tx, rx := rx } :=
  { h with tx_wf := htx, rx_wf := hrx }

/-- A command that leaves PARSE's results alone may end with any result but PARSE's own failures, ERR being set on a
failure (R26, R131). -/
theorem State.Inv.commandEnd {s : State} (h : s.Inv) (v : Half) {r : Result} {e : Bool} (he : r ≠ .ok → e = true)
    (hr : r ≠ .truncated ∧ r ≠ .badMarker ∧ r ≠ .crcMismatch) :
    State.Inv { s with crc := v, status := { s.status with result := r, err := e } } :=
  { h with
    failure_sets_err := he
    rx_ok_result := fun _ => hr
    mismatch_result := fun hm => absurd hm hr.2.2 }

/-- A frame the serializer can build may stand in TX (R33, R101). -/
theorem State.Inv.frameBuilt {s : State} (h : s.Inv) {n : Nat} (hn : n ≤ 254) {tx : Memory}
    (htx : Memory.wf tx = true) : State.Inv { s with tx := tx, txLen := BitVec.ofNat 9 (frameLength n) } :=
  have hlen : (BitVec.ofNat 9 (frameLength n)).toNat = 6 + n := by
    simp only [frameLength, hdr, trl, BitVec.toNat_ofNat]; omega
  { h with
    tx_wf := htx
    tx_len_range := .inr (by rw [hlen]; omega) }

/-- PARSE writes all that the invariant says of the receive results, so it owes those clauses afresh (R105). -/
theorem State.Inv.parsed {s : State} (h : s.Inv) (v : Half) (k : Byte) {l : Byte} {want got : Half} {st : Status}
    (herr : st.result ≠ .ok → st.err = true) (hmm : st.crcMm = true ↔ want ≠ got) (hq : st.isQuery = true → l = 4#8)
    (hok : st.rxOk = true → st.result ≠ .truncated ∧ st.result ≠ .badMarker ∧ st.result ≠ .crcMismatch)
    (hres : st.result = .crcMismatch → st.crcMm = true) :
    State.Inv { s with crc := v, rxPlen := l, rxKind := k, rxCalc := want, rxRecv := got, status := st } :=
  { h with
    failure_sets_err := herr
    crc_mm_iff := hmm
    query_len := hq
    rx_ok_result := hok
    mismatch_result := hres }

/-- Header and trailer of a frame the serializer can build stay inside the buffer (R38, R101). -/
theorem serialized_wf (c : Config) {n : Nat} (hn : n ≤ 254) (v : Half) {m : Memory} (hm : Memory.wf m = true) :
    Memory.wf (withTrailer c n v (withHeader c n m)) = true := by
  have hh : Memory.wf (withHeader c n m) = true := Memory.writeAll_wf hm (by simp [bufSize])
  exact Memory.writeAll_wf hh (by simp only [hdr, bufSize, List.length_cons, List.length_nil]; omega)

/-- Every command keeps the invariant. -/
theorem State.Inv.effect {s t : State} {i : Instr} (h : s.Inv) (he : Effect s i t) : t.Inv := by
  cases he with
  | nop => exact h.commandEnd s.crc nofun (by decide)
  | crcInit => exact h.commandEnd s.cfg.init nofun (by decide)
  | crcByte d => exact h.commandEnd (upd s.cfg s.crc (byteOperand d)) nofun (by decide)
  | clrErr => exact h.commandEnd s.crc nofun (by decide)
  | crcTx a n r => exact h.commandEnd r nofun (by decide)
  | crcRx a n r => exact h.commandEnd r nofun (by decide)
  | crcTxBadRange | crcRxBadRange | tooLarge | parseBadRange => exact h.commandEnd s.crc (fun _ => rfl) (by decide)
  | buildCmd n r v hn =>
    exact (h.frameBuilt hn (serialized_wf s.cfg hn v h.tx_wf)).commandEnd r nofun (by decide)
  | buildQuery r v =>
    have htag : Memory.wf (s.tx.writeAll 4 s.cfg.qtag.toList) = true := Memory.writeAll_wf h.tx_wf (by simp [bufSize])
    exact (h.frameBuilt (by decide) (serialized_wf s.cfg (by decide) v htag)).commandEnd r nofun (by decide)
  | parseFramingError n hn r hr k l =>
    have hne : r ≠ .crcMismatch := by rcases hr with rfl | rfl <;> decide
    exact h.parsed s.crc k (fun _ => rfl) (by simp) nofun nofun (fun hm => absurd hm hne)
  | parseMismatch n hn r want got k l q hq hne =>
    exact h.parsed r k (fun _ => rfl) ⟨fun _ => hne, fun _ => rfl⟩ hq nofun (fun _ => rfl)
  | parseOk n hn r want got k l q hq =>
    exact h.parsed r k (fun hr => absurd rfl hr) decide_eq_true_iff hq (fun _ => ⟨nofun, nofun, nofun⟩) nofun

/-- Whatever word is written to CMD, running it keeps the invariant (R66, R122). -/
theorem State.Inv.runCommand {w : Word} {s t : State} (h : s.Inv) (hr : runCommand w s = .next t) : t.Inv := by
  rcases runCommand_effect hr with ⟨i, -, he⟩ | ⟨-, rfl⟩
  · exact h.effect he
  · exact h.commandEnd s.crc (fun _ => rfl) (by decide)

/-- Settles O51, by what a step can do: a reset starts over at the same address, an access that is no command keeps
the buffers' form, and a command keeps the invariant by its effect. -/
theorem everyStepKeepsTheInvariant : Obligations.EveryStepKeepsTheInvariant := by
  intro s t h hstep
  rcases step_effect hstep with ⟨-, rfl⟩ | ⟨cut, rest, -, rfl⟩ | ⟨a, rest, data, enforce, v, tx, rx, -, rfl, htx, hrx⟩ |
    ⟨rest, w, -, hw⟩
  · exact h
  · exact resetOf_inv h.base_aligned rest
  · exact h.access rest data enforce v (htx h.tx_wf) (hrx h.rx_wf)
  · exact (h.access rest none s.crcEnforce s.crc h.tx_wf h.rx_wf).runCommand hw

/-- Settles O52: P_BASE = 0 is aligned. -/
theorem resetMeetsTheInvariant : Obligations.ResetMeetsTheInvariant :=
  resetOf_inv (by decide) []

end Sys2Proof.Machine
end

section
/-! PROOFS. Frames: what each command leaves alone, and from that which steps write PARSE's results and ERR. -/

namespace Sys2Proof.Machine

/-- No command writes CTRL, RX, or the host's side (R30, R39). -/
theorem Effect.host_eq {s t : State} {i : Instr} (h : Effect s i t) :
    t.crcEnforce = s.crcEnforce ∧ t.rx = s.rx ∧ t.pending = s.pending ∧ t.rdata = s.rdata := by
  cases h <;> exact ⟨rfl, rfl, rfl, rfl⟩

/-- Only the two serializer commands write TX and TX_LEN (R33, R38). -/
theorem Effect.tx_eq {s t : State} {i : Instr} (h : Effect s i t) (hc : ∀ n, i ≠ .buildCmd n) (hq : i ≠ .buildQuery) :
    t.tx = s.tx ∧ t.txLen = s.txLen := by
  cases h with
  | buildCmd n => exact absurd rfl (hc n)
  | buildQuery => exact absurd rfl hq
  | _ => exact ⟨rfl, rfl⟩

/-- The serializer writes the header and the two trailer bytes and no other byte (R101). -/
theorem read_serialized_of_ne (c : Config) {n : Nat} (v : Half) (m : Memory) {a : Nat} (h4 : 4 ≤ a) (h0 : a ≠ 4 + n)
    (h1 : a ≠ 5 + n) : Memory.read (withTrailer c n v (withHeader c n m)) a = Memory.read m a := by
  rw [read_withTrailer, if_neg h0, if_neg h1, read_withHeader, if_neg (by omega)]

/-- BUILD_CMD leaves the payload and all behind the trailer as they were (R101). -/
theorem Effect.read_buildCmd {s t : State} {n a : Nat} (h : Effect s (.buildCmd n) t) (h4 : 4 ≤ a) (h0 : a ≠ hdr + n)
    (h1 : a ≠ hdr + n + 1) : Memory.read t.tx a = Memory.read s.tx a := by
  cases h with
  | tooLarge => rfl
  | buildCmd r v => exact read_serialized_of_ne _ _ _ h4 h0 (by simp only [hdr] at h1; omega)

/-- BUILD_QUERY leaves all behind its 10-byte frame as it was (R104). -/
theorem Effect.read_buildQuery {s t : State} {a : Nat} (h : Effect s .buildQuery t) (ha : 10 ≤ a) :
    Memory.read t.tx a = Memory.read s.tx a := by
  cases h with
  | buildQuery r v =>
    refine (read_serialized_of_ne _ _ _ (by omega) (by omega) (by omega)).trans ?_
    rw [Memory.read_writeAll, length_qtag, if_neg (by omega)]

/-- NOP and CLR_ERR keep CRC.VALUE (R31, R120, R121). -/
theorem Effect.crc_eq {s t : State} {i : Instr} (h : Effect s i t) (hi : i = .nop ∨ i = .clrErr) : t.crc = s.crc := by
  rcases hi with rfl | rfl <;> cases h <;> rfl

/-- PARSE's result registers and flags are in `t` as they are in `s` (R27 to R29, R34 to R37). -/
def ReceiveKept (s t : State) : Prop :=
  t.rxPlen = s.rxPlen ∧ t.rxKind = s.rxKind ∧ t.rxCalc = s.rxCalc ∧ t.rxRecv = s.rxRecv ∧
    t.status.crcMm = s.status.crcMm ∧ t.status.isQuery = s.status.isQuery ∧ t.status.rxOk = s.status.rxOk

/-- Only PARSE writes its results (R27 to R29, R34 to R37). -/
theorem Effect.receiveKept {s t : State} {i : Instr} (h : Effect s i t) (hp : ∀ n, i ≠ .parse n) : ReceiveKept s t := by
  cases h with
  | parseBadRange n | parseFramingError n | parseMismatch n | parseOk n => exact absurd rfl (hp n)
  | _ => exact ⟨rfl, rfl, rfl, rfl, rfl, rfl, rfl⟩

/-- A command that succeeds keeps ERR, but for CLR_ERR (R26). -/
theorem Effect.err_eq_of_ok {s t : State} {i : Instr} (h : Effect s i t) (hi : i ≠ .clrErr)
    (hr : t.status.result = .ok) : t.status.err = s.status.err := by
  cases h with
  | clrErr => exact absurd rfl hi
  | crcTxBadRange | crcRxBadRange | tooLarge | parseBadRange | parseMismatch => cases hr
  | parseFramingError n hn r hf => rcases hf with rfl | rfl <;> cases hr
  | _ => rfl

/-- A command that fails sets ERR (R26, R131). -/
theorem Effect.err_of_failure {s t : State} {i : Instr} (h : Effect s i t) (hr : t.status.result ≠ .ok) :
    t.status.err = true := by
  cases h with
  | crcTxBadRange | crcRxBadRange | tooLarge | parseBadRange | parseMismatch | parseFramingError => rfl
  | _ => exact absurd rfl hr

/-- Settles O44, one frame lemma about the commands' effects a clause. -/
theorem commandsChangeOnlyTheirOwnState : Obligations.CommandsChangeOnlyTheirOwnState := by
  intro i s t h
  have he : Effect s i t := exec_effect h
  obtain ⟨henforce, hrx, hpending, hrdata⟩ := he.host_eq
  refine ⟨henforce, hrx, he.cfg_eq, hpending, hrdata, he.tx_eq, ?_, ?_, he.crc_eq, he.receiveKept, he.err_eq_of_ok⟩
  · rintro n rfl a
    exact he.read_buildCmd
  · rintro rfl a
    exact he.read_buildQuery

/-- A command word keeps PARSE's results, unless it is PARSE (R27 to R29, R34 to R37, R122). -/
theorem runCommand_receiveKept {w : Word} {s t : State} (h : runCommand w s = .next t)
    (hp : ∀ n, decode w ≠ .ok (.parse n)) : ReceiveKept s t := by
  rcases runCommand_effect h with ⟨i, hd, he⟩ | ⟨-, rfl⟩
  · refine he.receiveKept fun n hi => hp n ?_
    rw [hd, hi]
  · exact ⟨rfl, rfl, rfl, rfl, rfl, rfl, rfl⟩

/-- A step keeps PARSE's results, unless it is a reset or writes PARSE to CMD. -/
theorem step_receiveKept {s t : State} (h : step s = .next t) :
    ReceiveKept s t ∨ ∃ rest, (∃ cut, s.pending = .reset cut :: rest) ∨
      ∃ w n, s.pending = .access ⟨s.cfg.base, 4, .write w⟩ :: rest ∧ decode w = .ok (.parse n) := by
  rcases step_effect h with ⟨-, rfl⟩ | ⟨cut, rest, hp, -⟩ | ⟨a, rest, data, enforce, v, tx, rx, -, rfl, -⟩ |
    ⟨rest, w, hp, hw⟩
  · exact .inl ⟨rfl, rfl, rfl, rfl, rfl, rfl, rfl⟩
  · exact .inr ⟨rest, .inl ⟨cut, hp⟩⟩
  · exact .inl ⟨rfl, rfl, rfl, rfl, rfl, rfl, rfl⟩
  · by_cases hparse : ∃ n, decode w = .ok (.parse n)
    · obtain ⟨n, hd⟩ := hparse
      exact .inr ⟨rest, .inr ⟨w, n, hp, hd⟩⟩
    · exact .inl (runCommand_receiveKept hw (not_exists.mp hparse) :)

/-- Settles O45: a step that changed one of the results did not keep them. -/
theorem onlyParseOrResetWritesReceiveResults : Obligations.OnlyParseOrResetWritesReceiveResults := by
  intro s t h hchanged
  refine (step_receiveKept h).resolve_left fun hkept => ?_
  obtain ⟨hplen, hkind, hcalc, hrecv, hmm, hquery, hok⟩ := hkept
  simp [hplen, hkind, hcalc, hrecv, hmm, hquery, hok] at hchanged

/-- A command word that ends with another result than OK sets ERR (R26, R122). -/
theorem runCommand_err_of_failure {w : Word} {s t : State} (h : runCommand w s = .next t)
    (hr : t.status.result ≠ .ok) : t.status.err = true := by
  rcases runCommand_effect h with ⟨i, -, he⟩ | ⟨-, rfl⟩
  · exact he.err_of_failure hr
  · rfl

/-- A command word that clears ERR is CLR_ERR: a failing one sets ERR, and any other that succeeds keeps it (R26). -/
theorem runCommand_clears_err {w : Word} {s t : State} (h : runCommand w s = .next t) (hs : s.status.err = true)
    (ht : t.status.err = false) : decode w = .ok .clrErr := by
  have hok : t.status.result = .ok := by
    by_contra hr
    exact Bool.false_ne_true (ht.symm.trans (runCommand_err_of_failure h hr))
  rcases runCommand_effect h with ⟨i, hd, he⟩ | ⟨-, rfl⟩
  · by_cases hi : i = .clrErr
    · rw [hd, hi]
    · exact absurd (ht.symm.trans ((he.err_eq_of_ok hi hok).trans hs)) Bool.false_ne_true
  · cases hok

/-- A step that clears ERR is a reset or writes CLR_ERR to CMD (R26). -/
theorem step_clears_err {s t : State} (h : step s = .next t) (hs : s.status.err = true) (ht : t.status.err = false) :
    ∃ rest, (∃ cut, s.pending = .reset cut :: rest) ∨
      ∃ w, s.pending = .access ⟨s.cfg.base, 4, .write w⟩ :: rest ∧ decode w = .ok .clrErr := by
  rcases step_effect h with ⟨-, rfl⟩ | ⟨cut, rest, hp, -⟩ | ⟨a, rest, data, enforce, v, tx, rx, -, rfl, -⟩ |
    ⟨rest, w, hp, hw⟩
  · exact absurd (ht.symm.trans hs) Bool.false_ne_true
  · exact ⟨rest, .inl ⟨cut, hp⟩⟩
  · exact absurd (ht.symm.trans hs) Bool.false_ne_true
  · exact ⟨rest, .inr ⟨w, hp, runCommand_clears_err hw hs ht⟩⟩

/-- Settles O46: every failing command word sets ERR, and of the steps only CLR_ERR and reset clear it. -/
theorem errIsSticky : Obligations.ErrIsSticky :=
  ⟨fun _ _ _ => runCommand_err_of_failure, fun _ _ => step_clears_err, fun _ => ⟨_, rfl, rfl⟩,
    fun _ _ _ hp => ⟨_, step_reset hp, rfl⟩⟩

end Sys2Proof.Machine
end

section
/-! PROOFS. Where a command stops: only on a byte of TX or RX, within its 261, that was never written. -/

namespace Sys2Proof.Machine

/-- The answer `o` of a command on `s` is a next state, or the fault of a byte of a buffer that was never written
(R40). -/
def NextOrUnwritten (s : State) (o : Answer) : Prop :=
  (∃ t, o = .next t) ∨ ∃ b k, o = .fault (.unwrittenByte b k) ∧ k < 261 ∧ Memory.read (s.buffer b) k = none

theorem nextOrUnwritten_raise (s u : State) (r : Result) : NextOrUnwritten s (raise r u) := .inl ⟨_, rfl⟩

theorem nextOrUnwritten_complete (s u : State) : NextOrUnwritten s (complete u) := .inl ⟨_, rfl⟩

/-- The CRC over a range reads only bytes of the range, and the range is checked against the buffer (R90, R91). -/
theorem crcRange_nextOrUnwritten (b : Buffer) (a n : Nat) (s : State) : NextOrUnwritten s (crcRange b a n s) := by
  rcases crcRange_cases b a n s with ⟨-, e⟩ | ⟨-, bs, -, -, e⟩ | ⟨hn, k, hk, hnone, e⟩
  · rw [e]; exact nextOrUnwritten_raise _ _ _
  · rw [e]; exact nextOrUnwritten_complete _ _
  · exact .inr ⟨b, a + k, e, by omega, hnone⟩

/-- BUILD_CMD reads only the payload, once its length has passed the check (R101, R103). -/
theorem execBuildCmd_nextOrUnwritten (n : Nat) (s : State) : NextOrUnwritten s (execBuildCmd n s) := by
  rcases Nat.lt_or_ge 254 n with hn | hn
  · rw [execBuildCmd_of_gt hn]; exact nextOrUnwritten_raise _ _ _
  · rw [execBuildCmd_of_le hn]
    rcases serialize_cases n s with ⟨p, -, -, e⟩ | ⟨k, hk, hnone, e⟩
    · rw [e]; exact nextOrUnwritten_complete _ _
    · exact .inr ⟨.tx, 4 + k, e, by omega, hnone⟩

/-- The checksum step has read its bytes already and always ends (R105, R108). -/
theorem checksumStep_next (bs : List Byte) (t0 t1 : Byte) (s : State) : ∃ t, checksumStep bs t0 t1 s = .next t := by
  obtain ⟨r, want, got, q, -, ⟨-, e⟩ | e⟩ := checksumStep_cases bs t0 t1 s
  · exact ⟨_, e⟩
  · exact ⟨_, e⟩

/-- PARSE reads only bytes below its length operand, which is checked against the buffer (R105). -/
theorem execParse_nextOrUnwritten (n : Nat) (s : State) : NextOrUnwritten s (execParse n s) := by
  rcases execParse_cases n s with ⟨-, e⟩ | ⟨-, e⟩ | ⟨-, -, -, e⟩ | ⟨-, hn, kind, l, -, -, -, -, e⟩ |
    ⟨-, -, k, hk, hnone, e⟩
  · rw [e]; exact nextOrUnwritten_raise _ _ _
  · rw [e]; exact nextOrUnwritten_raise _ _ _
  · rw [e]; exact nextOrUnwritten_raise _ _ _
  · rw [e]
    rcases parseBody_cases n ((clearResults s).setRxHeader kind l) with ⟨-, e'⟩ | ⟨-, bs, t0, t1, -, -, -, -, e'⟩ |
      ⟨hlen, k, hk, hnone, e'⟩
    · rw [e']; exact nextOrUnwritten_raise _ _ _
    · rw [e']; exact .inl (checksumStep_next _ _ _ _)
    · exact .inr ⟨.rx, k, e', by omega, hnone⟩
  · exact .inr ⟨.rx, k, e, by omega, hnone⟩

/-- Settles O48, command by command. -/
theorem commandsStopOnlyOnUnwrittenBytes : Obligations.CommandsStopOnlyOnUnwrittenBytes := by
  intro i s
  cases i with
  | nop => exact nextOrUnwritten_complete _ _
  | crcInit => exact nextOrUnwritten_complete _ _
  | crcByte d => exact nextOrUnwritten_complete _ _
  | clrErr => exact nextOrUnwritten_complete _ _
  | crcTx a n => exact crcRange_nextOrUnwritten .tx a n s
  | crcRx a n => exact crcRange_nextOrUnwritten .rx a n s
  | buildCmd n => exact execBuildCmd_nextOrUnwritten n s
  | buildQuery => exact .inl ⟨_, execBuildQuery_eq s⟩
  | parse n => exact execParse_nextOrUnwritten n s

end Sys2Proof.Machine
end

section
/-! PROOFS. The register CMD at the port, the layout of STATUS, and the values a reset leaves. -/

namespace Sys2Proof.Machine

theorem targetAt_zero : targetAt 0 = .cmd := rfl

/-- One step of a write to CMD runs the word (R23, R50). -/
theorem step_cmd_write {s : State} {w : Word} {rest : List BusEvent}
    (hp : s.pending = .access (wr s.cfg 0 w) :: rest) :
    step s = runCommand w { s with pending := rest, rdata := none } := by
  rw [step_wr hp (by decide) (by decide), targetAt_zero]; rfl

theorem runCommand_of_ok {w : Word} {i : Instr} (h : decode w = .ok i) (s : State) : runCommand w s = exec i s := by
  rw [runCommand, h]

theorem runCommand_of_error {w : Word} {e : IllegalWord} (h : decode w = .error e) (s : State) :
    runCommand w s = raise .illegal s := by
  rw [runCommand, h]; rfl

theorem decodeTableWord_some_iff (nbits w : Nat) (i : Instr) :
    decodeTableWord nbits w = some i ↔ decode (tableWord nbits w) = .ok i := by
  unfold decodeTableWord
  cases decode (tableWord nbits w) <;> simp

/-- Settles O9: the step of a write to CMD is the word's run, and CMD reads as 0. -/
theorem cmdWriteRunsDecodedCommand : Obligations.CmdWriteRunsDecodedCommand := by
  intro s rest
  refine ⟨fun w i hp hd => ?_, fun w e hp hd => ?_, fun hp => ?_⟩
  · rw [step_cmd_write hp, runCommand_of_ok hd]
  · rw [step_cmd_write hp, runCommand_of_error hd, raise_eq]
  · rw [step_rd hp (by decide) (by decide), targetAt_zero]; rfl

/-- Settles O11: the placed word is the next write to CMD. -/
theorem placedWordIsRunNext : Obligations.PlacedWordIsRunNext := by
  intro s w i hd
  rw [step_cmd_write (s := s.withFetchWord 32 w) rfl, runCommand_of_ok ((decodeTableWord_some_iff 32 w i).mp hd)]
  rfl

/-- The value of two fields side by side: the upper one weighs 2 to the lower one's width. -/
theorem toNat_append_eq_add {m n : Nat} (x : BitVec m) (y : BitVec n) :
    (x ++ y).toNat = x.toNat * 2 ^ n + y.toNat := by
  rw [BitVec.toNat_append, ← Nat.shiftLeft_add_eq_or_of_lt y.isLt, Nat.shiftLeft_eq]

/-- Each field of STATUS weighs in by its lowest bit's position (R24). -/
theorem Status.toNat_word (v : Status) : v.word.toNat =
    v.result.code.toNat + 16 * v.err.toNat + 32 * v.crcMm.toNat + 64 * v.isQuery.toNat + 128 * v.rxOk.toNat := by
  simp only [Status.word, toNat_append_eq_add, BitVec.toNat_ofBool, BitVec.toNat_ofNat]
  omega

/-- Settles O17: the fields' weights, and the codes by their definition. -/
theorem statusWordLayout : Obligations.StatusWordLayout :=
  ⟨Status.toNat_word, rfl, rfl, rfl, rfl, rfl, rfl, rfl⟩

theorem Status.word_reset : Status.reset.word = 0#32 := by decide

/-- Settles O20: a reset edge leaves the reset state of the block's own configuration. -/
theorem resetEdgeGivesResetValues : Obligations.ResetEdgeGivesResetValues :=
  fun s _ rest hp => ⟨State.resetOf s.cfg rest, step_reset hp, rfl, Status.word_reset, rfl, rfl, rfl, rfl, rfl, rfl, rfl,
    rfl, fun _ => ⟨rfl, rfl⟩, rfl, rfl, rfl⟩

/-- Settles O21, each register by its reset value; at the defaults CRC_OUT is CRC.VALUE. -/
theorem startIsResetStateAtDefaults : Obligations.StartIsResetStateAtDefaults :=
  ⟨Status.word_reset, rfl, rfl, by decide, rfl, rfl, rfl, rfl, rfl, fun _ => ⟨rfl, rfl⟩, rfl, rfl⟩

end Sys2Proof.Machine
end

section
/-! PROOFS. The port: the accesses it has no address for, and the order of the events. -/

namespace Sys2Proof.Machine

/-- One step of an access is that access, its event taken off the list (R53). -/
theorem step_access {s : State} {a : Access} {rest : List BusEvent} (hp : s.pending = .access a :: rest) :
    step s = access a { s with pending := rest } := by
  simp only [step, nextEvent, hp, busEvent]; rfl

theorem portAddr_outside {c : Config} {a : Access} (h : a.addr < c.base ∨ c.base + 0x4000 ≤ a.addr) :
    portAddr c a = .error .outside := if_pos h

theorem portAddr_width {c : Config} {a : Access} (hlo : c.base ≤ a.addr) (hhi : a.addr < c.base + 0x4000)
    (hw : a.bytes ≠ 4) : portAddr c a = .error .width := by
  rw [portAddr, if_neg (by simp only [windowSize]; omega), if_pos hw]

theorem portAddr_unaligned {c : Config} {a : Access} (hlo : c.base ≤ a.addr) (hhi : a.addr < c.base + 0x4000)
    (hw : a.bytes = 4) (ha : (a.addr - c.base) % 4 ≠ 0) : portAddr c a = .error .unaligned := by
  rw [portAddr, if_neg (by simp only [windowSize]; omega), if_neg (not_not.mpr hw), if_pos ha]

/-- Settles O16: the port has no address outside the window. -/
theorem outsideWindowFaults : Obligations.OutsideWindowFaults := by
  intro s a rest hp h
  rw [step_access hp, access, portAddr_outside h]

/-- A command word leaves the events still to come (R21). -/
theorem runCommand_pending {w : Word} {s t : State} (h : runCommand w s = .next t) : t.pending = s.pending := by
  rcases runCommand_effect h with ⟨i, -, he⟩ | ⟨-, rfl⟩
  · obtain ⟨-, -, hpending, -⟩ := he.host_eq
    exact hpending
  · rfl

/-- Settles O19, by what a step can do: no event, or the first one of the list. -/
theorem stepTakesTheOldestEvent : Obligations.StepTakesTheOldestEvent := by
  intro s t h
  rcases step_effect h with ⟨hp, rfl⟩ | ⟨cut, rest, hp, rfl⟩ | ⟨a, rest, data, enforce, v, tx, rx, hp, rfl, -⟩ |
    ⟨rest, w, hp, hw⟩
  · rw [hp, List.tail_nil]
  · rw [hp, List.tail_cons, State.resetOf_pending]
  · rw [hp, List.tail_cons]
  · rw [hp, List.tail_cons]
    exact (runCommand_pending hw :)

end Sys2Proof.Machine
end

section
/-! PROOFS. The address map: what a bus read returns and what a bus write stores at each offset. -/

namespace Sys2Proof.Machine

theorem ctrlWord_eq (enforce : Bool) : ctrlWord enforce = if enforce then 1#32 else 0#32 := by
  cases enforce <;> rfl

/-- The ten registers' offsets, each with the word a bus read there returns (R46, R49). -/
def State.registerMap (s : State) : List (Nat × Word) :=
  [(0x000, 0#32), (0x004, s.status.word), (0x008, if s.crcEnforce then 1#32 else 0#32), (0x00C, s.crc.zeroExtend 32),
    (0x010, (fin s.cfg s.crc).zeroExtend 32), (0x014, s.txLen.zeroExtend 32), (0x018, s.rxPlen.zeroExtend 32),
    (0x01C, s.rxKind.zeroExtend 32), (0x020, s.rxCalc.zeroExtend 32), (0x024, s.rxRecv.zeroExtend 32)]

theorem readTarget_of_mem_registerMap (s : State) :
    ∀ p ∈ s.registerMap, readTarget s (targetAt p.1) = .ok p.2 := by
  simp only [State.registerMap, List.forall_mem_cons]
  exact ⟨rfl, rfl, congrArg Except.ok (ctrlWord_eq _), rfl, rfl, rfl, rfl, rfl, rfl, rfl, List.forall_mem_nil _⟩

theorem offset_of_mem_registerMap (s : State) : ∀ p ∈ s.registerMap, p.1 < 0x4000 ∧ p.1 % 4 = 0 := by
  simp [State.registerMap]

/-- One step of a bus read that has a word to return (R49). -/
theorem step_rd_of_ok {s : State} {off : Nat} {v : Word} {rest : List BusEvent}
    (hp : s.pending = .access (rd s.cfg off) :: rest) (h : off < 0x4000) (ha : off % 4 = 0)
    (hv : readTarget s (targetAt off) = .ok v) : step s = .next { s with pending := rest, rdata := some v } := by
  rw [step_rd hp h ha, hv]

/-- One step of a bus read of a buffer byte: the byte, or the fault where none was written (R40, R49). -/
theorem step_rd_byte {s : State} {off i : Nat} {b : Buffer} {rest : List BusEvent}
    (hp : s.pending = .access (rd s.cfg off) :: rest) (h : off < 0x4000) (ha : off % 4 = 0)
    (ht : readTarget s (targetAt off) = (readByte b (s.buffer b) i).map (·.zeroExtend 32)) :
    (∀ x, Memory.read (s.buffer b) i = some x →
      step s = .next { s with pending := rest, rdata := some (x.zeroExtend 32) }) ∧
    (Memory.read (s.buffer b) i = none → step s = .fault (.unwrittenByte b i)) := by
  refine ⟨fun x hx => step_rd_of_ok hp h ha ?_, fun hn => ?_⟩
  · rw [ht, (readByte_ok_iff ..).mpr hx]; rfl
  · rw [step_rd hp h ha, ht, (readByte_error_iff ..).mpr ⟨hn, rfl⟩]; rfl

/-- The ranges of the window whose word-aligned offsets name no register and no buffer byte (R46, R51). -/
def ReservedOffset (off : Nat) : Prop :=
  (0x0028 ≤ off ∧ off ≤ 0x0FFC) ∨ (0x1414 ≤ off ∧ off ≤ 0x1FFC) ∨ (0x2414 ≤ off ∧ off ≤ 0x3FFC)

theorem ReservedOffset.lt_window {off : Nat} (h : ReservedOffset off) : off < 0x4000 := by
  unfold ReservedOffset at h; omega

theorem ReservedOffset.targetAt_eq {off : Nat} (h : ReservedOffset off) : targetAt off = .reserved :=
  targetAt_reserved (h.imp_right (Or.imp_right And.left))

theorem step_rd_reserved {s : State} {off : Nat} {rest : List BusEvent}
    (hp : s.pending = .access (rd s.cfg off) :: rest) (ha : off % 4 = 0) (h : ReservedOffset off) :
    step s = .next { s with pending := rest, rdata := some 0#32 } :=
  step_rd_of_ok hp h.lt_window ha (by rw [h.targetAt_eq]; rfl)

theorem step_wr_reserved {s : State} {off : Nat} {w : Word} {rest : List BusEvent}
    (hp : s.pending = .access (wr s.cfg off w) :: rest) (ha : off % 4 = 0) (h : ReservedOffset off) :
    step s = .next { s with pending := rest, rdata := none } := by
  rw [step_wr hp h.lt_window ha, h.targetAt_eq]; rfl

/-- Settles O12: the registers by the map, the buffers by their bytes, and the reserved offsets. -/
theorem busReadReturnsAddressedValue : Obligations.BusReadReturnsAddressedValue := by
  intro s rest off hp
  refine ⟨fun p hm ho => ?_, fun i hi ho => ?_, fun i hi ho => ?_, fun ha hr => step_rd_reserved hp ha hr⟩
  · subst ho
    obtain ⟨hlt, ha⟩ := offset_of_mem_registerMap s p hm
    exact step_rd_of_ok hp hlt ha (readTarget_of_mem_registerMap s p hm)
  · exact step_rd_byte (b := .tx) hp (by omega) (by omega) (by rw [ho, targetAt_tx hi]; rfl)
  · exact step_rd_byte (b := .rx) hp (by omega) (by omega) (by rw [ho, targetAt_rx hi]; rfl)

/-- The offsets of the registers that a bus write leaves alone (R46, R51). -/
def readOnlyOffsets : List Nat := [0x004, 0x010, 0x014, 0x018, 0x01C, 0x020, 0x024]

theorem writeTarget_of_mem_readOnlyOffsets (w : Word) (s : State) :
    ∀ off ∈ readOnlyOffsets, writeTarget w s (targetAt off) = .next s := by
  simp only [readOnlyOffsets, List.forall_mem_cons]
  exact ⟨rfl, rfl, rfl, rfl, rfl, rfl, rfl, List.forall_mem_nil _⟩

theorem offset_of_mem_readOnlyOffsets : ∀ off ∈ readOnlyOffsets, off < 0x4000 ∧ off % 4 = 0 := by decide

theorem step_wr_readOnly {s : State} {off : Nat} {w : Word} {rest : List BusEvent}
    (hp : s.pending = .access (wr s.cfg off w) :: rest) (h : off ∈ readOnlyOffsets) :
    step s = .next { s with pending := rest, rdata := none } := by
  obtain ⟨hlt, ha⟩ := offset_of_mem_readOnlyOffsets off h
  rw [step_wr hp hlt ha, writeTarget_of_mem_readOnlyOffsets w _ off h]

theorem step_wr_ctrl {s : State} {w : Word} {rest : List BusEvent}
    (hp : s.pending = .access (wr s.cfg 0x008 w) :: rest) :
    step s = .next { s with pending := rest, rdata := none, crcEnforce := w.getLsbD 0 } :=
  step_wr hp (by decide) (by decide)

theorem step_wr_crc {s : State} {w : Word} {rest : List BusEvent}
    (hp : s.pending = .access (wr s.cfg 0x00C w) :: rest) :
    step s = .next { s with pending := rest, rdata := none, crc := w.extractLsb' 0 16 } :=
  step_wr hp (by decide) (by decide)

theorem step_wr_tx {s : State} {i : Nat} {w : Word} {rest : List BusEvent} (hi : i ≤ 260)
    (hp : s.pending = .access (wr s.cfg (0x1000 + 4 * i) w) :: rest) :
    step s = .next { s with pending := rest, rdata := none, tx := s.tx.write i (w.extractLsb' 0 8) } := by
  rw [step_wr hp (by omega) (by omega), targetAt_tx hi]; rfl

theorem step_wr_rx {s : State} {i : Nat} {w : Word} {rest : List BusEvent} (hi : i ≤ 260)
    (hp : s.pending = .access (wr s.cfg (0x2000 + 4 * i) w) :: rest) :
    step s = .next { s with pending := rest, rdata := none, rx := s.rx.write i (w.extractLsb' 0 8) } := by
  rw [step_wr hp (by omega) (by omega), targetAt_rx hi]; rfl

/-- Settles O13: one step lemma an offset, and the two refusals of the port. -/
theorem busWriteActsByOffset : Obligations.BusWriteActsByOffset := by
  intro s rest
  obtain ⟨hcmd, hillegal, -⟩ := cmdWriteRunsDecodedCommand s rest
  refine ⟨fun off w hp => ⟨?_, ?_, ?_, ?_, ?_, fun h => step_wr_readOnly hp h, fun ha h => step_wr_reserved hp ha h⟩,
    fun a hp hlo hhi => ⟨fun hw => ?_, fun hw ha => ?_⟩⟩
  · rintro rfl
    exact ⟨fun i => hcmd w i hp, fun e => hillegal w e hp⟩
  · rintro rfl
    exact step_wr_ctrl hp
  · rintro rfl
    exact step_wr_crc hp
  · rintro i hi rfl
    exact ⟨_, step_wr_tx hi hp, Memory.read_write_same .., fun j hj => Memory.read_write_ne _ _ hj⟩
  · rintro i hi rfl
    exact ⟨_, step_wr_rx hi hp, Memory.read_write_same .., fun j hj => Memory.read_write_ne _ _ hj⟩
  · rw [step_access hp, access, portAddr_width hlo hhi hw]
  · rw [step_access hp, access, portAddr_unaligned hlo hhi hw ha]

/-- The ten registers' offsets, each with the number of bits its fields span (R24, R30 to R37). -/
def registerWidths : List (Nat × Nat) :=
  [(0x000, 0), (0x004, 8), (0x008, 1), (0x00C, 16), (0x010, 16), (0x014, 9), (0x018, 8), (0x01C, 8), (0x020, 16),
    (0x024, 16)]

theorem offset_of_mem_registerWidths : ∀ p ∈ registerWidths, p.1 < 0x4000 ∧ p.1 % 4 = 0 := by decide

/-- STATUS has its fields in the lower eight bits (R24). -/
theorem Status.word_lt (v : Status) : v.word.toNat < 2 ^ 8 := by
  have hcode := v.result.code.isLt
  have herr := v.err.toNat_le
  have hmm := v.crcMm.toNat_le
  have hquery := v.isQuery.toNat_le
  have hok := v.rxOk.toNat_le
  rw [Status.toNat_word]
  omega

theorem ctrlWord_lt (enforce : Bool) : (ctrlWord enforce).toNat < 2 ^ 1 := by
  cases enforce <;> decide

theorem toNat_zeroExtend_lt {n : Nat} (x : BitVec n) : (x.zeroExtend 32).toNat < 2 ^ n := by
  rw [BitVec.toNat_setWidth]
  exact (Nat.mod_le _ _).trans_lt x.isLt

/-- A register reads as a number below 2 to its width (R49, R51). -/
theorem readTarget_lt_of_mem_registerWidths (s : State) :
    ∀ p ∈ registerWidths, ∃ v, readTarget s (targetAt p.1) = .ok v ∧ v.toNat < 2 ^ p.2 := by
  simp only [registerWidths, List.forall_mem_cons]
  exact ⟨⟨_, rfl, by decide⟩, ⟨_, rfl, s.status.word_lt⟩, ⟨_, rfl, ctrlWord_lt _⟩, ⟨_, rfl, toNat_zeroExtend_lt _⟩,
    ⟨_, rfl, toNat_zeroExtend_lt _⟩, ⟨_, rfl, toNat_zeroExtend_lt _⟩, ⟨_, rfl, toNat_zeroExtend_lt _⟩,
    ⟨_, rfl, toNat_zeroExtend_lt _⟩, ⟨_, rfl, toNat_zeroExtend_lt _⟩, ⟨_, rfl, toNat_zeroExtend_lt _⟩,
    List.forall_mem_nil _⟩

/-- Settles O14: a register's word is below 2 to its width, and CTRL and CRC store only their fields' bits. -/
theorem reservedReadsZeroAndIgnoresWrites : Obligations.ReservedReadsZeroAndIgnoresWrites := by
  intro s rest off
  refine ⟨fun ha h => ⟨fun hp => step_rd_reserved hp ha h, fun w hp => step_wr_reserved hp ha h⟩,
    fun h w hp => step_wr_readOnly hp h, fun p hm ho hp => ?_, ?_⟩
  · subst ho
    obtain ⟨hlt, ha⟩ := offset_of_mem_registerWidths p hm
    obtain ⟨v, hv, hbound⟩ := readTarget_lt_of_mem_registerWidths s p hm
    exact ⟨v, step_rd_of_ok hp hlt ha hv, fun k hk =>
      Nat.testBit_lt_two_pow (hbound.trans_le (Nat.pow_le_pow_right (by decide) hk))⟩
  · rintro w w' (⟨rfl, hbit⟩ | ⟨rfl, hbits⟩)
    · rw [step_wr_ctrl rfl, step_wr_ctrl rfl, hbit]
    · rw [step_wr_crc rfl, step_wr_crc rfl, hbits]

end Sys2Proof.Machine
end

section
/-! PROOFS. What the host may repeat: reads and data writes, but no command. -/

namespace Sys2Proof.Machine

/-- A repeated read: the first changes only the read data, which no read returns (R52). -/
theorem step_read_twice {s t : State} {a : Access} {rest : List BusEvent} (hop : a.op = .read)
    (hp : s.pending = .access a :: .access a :: rest) (h : step s = .next t) :
    t = { s with pending := .access a :: rest, rdata := t.rdata } ∧ step t = .next { t with pending := rest } := by
  rcases step_cases h with ⟨hq, -⟩ | ⟨cut, l, hq, -⟩ | ⟨off, l, v, hlt, ha, hq, hv, rfl⟩ | ⟨off, l, w, -, -, hq, -⟩
  · cases hp.symm.trans hq
  · cases hp.symm.trans hq
  · cases hp.symm.trans hq
    refine ⟨rfl, step_rd_of_ok rfl hlt ha ?_⟩
    rw [← hv]
    cases targetAt off <;> rfl
  · cases hp.symm.trans hq
    cases hop

/-- A write of one word repeated at an offset that stores data (R52). -/
theorem step_dataWrite_twice {s t : State} {off : Nat} {w : Word} {rest : List BusEvent}
    (hoff : off = 0x008 ∨ off = 0x00C ∨ ∃ i, i ≤ 260 ∧ (off = 0x1000 + 4 * i ∨ off = 0x2000 + 4 * i))
    (hp : s.pending = .access (wr s.cfg off w) :: .access (wr s.cfg off w) :: rest) (h : step s = .next t) :
    step t = .next { t with pending := rest } := by
  rcases hoff with rfl | rfl | ⟨i, hi, rfl | rfl⟩
  · cases (step_wr_ctrl hp).symm.trans h
    exact step_wr_ctrl rfl
  · cases (step_wr_crc hp).symm.trans h
    exact step_wr_crc rfl
  · cases (step_wr_tx hi hp).symm.trans h
    rw [step_wr_tx hi rfl, Memory.write_write_same]
  · cases (step_wr_rx hi hp).symm.trans h
    rw [step_wr_rx hi rfl, Memory.write_write_same]

theorem decode_encode_crcByte {d : Nat} (h : d ≤ 255) : decode (encode (.crcByte d)) = .ok (.crcByte d) :=
  (decode_ok_iff ..).mpr (Laws.EncodesToItsRow.crcByte d (decide_eq_true h))

/-- One step of a write of CRC_BYTE to CMD (R89). -/
theorem step_cmd_crcByte {s : State} {d : Nat} {rest : List BusEvent} (h : d ≤ 255)
    (hp : s.pending = .access (wr s.cfg 0 (encode (.crcByte d))) :: rest) :
    step s = .next { s with pending := rest, rdata := none, crc := upd s.cfg s.crc (BitVec.ofNat 8 d),
                            status := { s.status with result := .ok } } := by
  rw [step_cmd_write hp, runCommand_of_ok (decode_encode_crcByte h)]; rfl

/-- Settles O15: a read, a data write and a CRC_BYTE, each run twice. -/
theorem readsAndDataWritesAreIdempotent : Obligations.ReadsAndDataWritesAreIdempotent :=
  ⟨fun _ _ _ _ => step_read_twice, fun _ _ _ _ _ => step_dataWrite_twice,
    fun _ _ _ h hp => ⟨_, _, step_cmd_crcByte h hp, step_cmd_crcByte h rfl, rfl⟩⟩

end Sys2Proof.Machine
end

section
/-! PROOFS. Command words: encoder and decoder are inverse, and the opcode map row for row. -/

namespace Sys2Proof

/-- The word of a well-formed command is matched by a row that gives the command back (R66 to R72). -/
theorem encodesToItsRow (i : Instr) : Laws.EncodesToItsRow.Statement i := by
  cases i with
  | nop => exact Laws.EncodesToItsRow.nop
  | crcInit => exact Laws.EncodesToItsRow.crcInit
  | crcByte d => exact Laws.EncodesToItsRow.crcByte d
  | crcTx s n => exact Laws.EncodesToItsRow.crcTx s n
  | crcRx s n => exact Laws.EncodesToItsRow.crcRx s n
  | clrErr => exact Laws.EncodesToItsRow.clrErr
  | buildCmd n => exact Laws.EncodesToItsRow.buildCmd n
  | buildQuery => exact Laws.EncodesToItsRow.buildQuery
  | parse n => exact Laws.EncodesToItsRow.parse n

/-- Settles O3: the decoder answers the command of the row that matches the word. -/
theorem decodeInvertsEncode : Obligations.DecodeInvertsEncode :=
  fun i hi => (decode_ok_iff ..).mpr (encodesToItsRow i hi)

/-- Settles O2: each word is the encoding of its command. -/
theorem specVectorWordsDecode : Obligations.SpecVectorWordsDecode :=
  ⟨decodeInvertsEncode .nop rfl, decodeInvertsEncode .crcInit rfl, decodeInvertsEncode (.crcByte 0xAB) rfl,
    decodeInvertsEncode (.crcTx 4 5) rfl, decodeInvertsEncode (.crcRx 252 9) rfl,
    decodeInvertsEncode (.crcRx 511 511) rfl, decodeInvertsEncode .clrErr rfl, decodeInvertsEncode (.buildCmd 254) rfl,
    decodeInvertsEncode .buildQuery rfl, decodeInvertsEncode (.parse 261) rfl⟩

/-- A row's operands are the word's fields, so they fit them (R71). -/
theorem command_wellFormed : ∀ r ∈ opTable, ∀ w, (r.command w).WellFormed := by
  have hd (w : Word) : dField w ≤ 255 := Nat.le_of_lt_succ (dField_lt w)
  have hs (w : Word) : sField w ≤ 511 := Nat.le_of_lt_succ (sField_lt w)
  have hn (w : Word) : nField w ≤ 511 := Nat.le_of_lt_succ (nField_lt w)
  simp [opTable, Instr.WellFormed, Instr.wellFormed, hd, hs, hn]

/-- Format N has no operand: all its bits are fixed (R67). -/
theorem formatN_of_fixed {w : Word} {op : BitVec 8} (h : w &&& 0xFFFFFFFF#32 = formatN op) : formatN op = w :=
  h.symm.trans BitVec.and_allOnes

/-- A word that a row matches is the word of the row's command (R66 to R70). -/
theorem encode_command_of_hits : ∀ r ∈ opTable, ∀ w, w &&& r.mask = r.value → encode (r.command w) = w := by
  simp only [opTable, List.forall_mem_cons]
  exact ⟨fun _ => formatN_of_fixed (op := 0x00#8), fun _ => formatN_of_fixed (op := 0x01#8),
    fun _ => formatB_of_fixed (op := 0x02#8), fun _ => formatR_of_fixed (op := 0x03#8),
    fun _ => formatR_of_fixed (op := 0x04#8), fun _ => formatN_of_fixed (op := 0x0F#8),
    fun _ => formatL_of_fixed (op := 0x10#8), fun _ => formatN_of_fixed (op := 0x11#8),
    fun _ => formatL_of_fixed (op := 0x20#8), List.forall_mem_nil _⟩

/-- Settles O4, by the row the decoder found. -/
theorem encodeInvertsDecode : Obligations.EncodeInvertsDecode := by
  intro w i h
  obtain ⟨r, hm, hr, rfl⟩ := (decode_ok_iff w i).mp h
  exact ⟨command_wellFormed r hm w, encode_command_of_hits r hm w ((hits_iff r w).mp hr)⟩

/-- The decoder inverts the encoder on the well-formed commands and nowhere else. -/
theorem decode_eq_ok_iff (w : Word) (i : Instr) : decode w = .ok i ↔ i.WellFormed ∧ encode i = w :=
  ⟨encodeInvertsDecode w i, fun ⟨hi, hw⟩ => hw ▸ decodeInvertsEncode i hi⟩

/-- A word of format B is known by its fixed bits and its operand field (R68). -/
theorem formatB_eq_iff {op : BitVec 8} {d : Nat} {w : Word} :
    d ≤ 255 ∧ formatB op d = w ↔ w &&& 0xFFFFFF00#32 = formatN op ∧ d = dField w := by
  constructor
  · rintro ⟨hd, rfl⟩
    exact ⟨formatB_fixed op d, (dField_formatB op hd).symm⟩
  · rintro ⟨h, rfl⟩
    exact ⟨Nat.le_of_lt_succ (dField_lt w), formatB_of_fixed h⟩

/-- A word of format R is known by its fixed bits and its two operand fields (R69). -/
theorem formatR_eq_iff {op : BitVec 8} {a n : Nat} {w : Word} :
    (a ≤ 511 ∧ n ≤ 511) ∧ formatR op a n = w ↔ w &&& 0xFFE00E00#32 = formatN op ∧ a = sField w ∧ n = nField w := by
  constructor
  · rintro ⟨⟨ha, hn⟩, rfl⟩
    exact ⟨formatR_fixed op a n, (sField_formatR op n ha).symm, (nField_formatR op a hn).symm⟩
  · rintro ⟨h, rfl, rfl⟩
    exact ⟨⟨Nat.le_of_lt_succ (sField_lt w), Nat.le_of_lt_succ (nField_lt w)⟩, formatR_of_fixed h⟩

/-- A word of format L is known by its fixed bits and its operand field (R70). -/
theorem formatL_eq_iff {op : BitVec 8} {n : Nat} {w : Word} :
    n ≤ 511 ∧ formatL op n = w ↔ w &&& 0xFFFFFE00#32 = formatN op ∧ n = nField w := by
  constructor
  · rintro ⟨hn, rfl⟩
    exact ⟨formatL_fixed op n, (nField_formatL op hn).symm⟩
  · rintro ⟨h, rfl⟩
    exact ⟨Nat.le_of_lt_succ (nField_lt w), formatL_of_fixed h⟩

/-- A field of a word, by a shift and a mask of its width. -/
theorem toNat_extractLsb'_eq_and {k n : Nat} (hn : n ≤ 32) (w : Word) :
    (w.extractLsb' k n).toNat = (w >>> k &&& BitVec.ofNat 32 (2 ^ n - 1)).toNat := by
  have hlt : 2 ^ n - 1 < 2 ^ 32 := (Nat.sub_one_lt (by positivity)).trans_le (Nat.pow_le_pow_right (by decide) hn)
  rw [BitVec.extractLsb'_toNat, BitVec.toNat_and, BitVec.toNat_ushiftRight, BitVec.toNat_ofNat,
    Nat.mod_eq_of_lt hlt, Nat.and_two_pow_sub_one_eq_mod]

theorem dField_eq_and (w : Word) : dField w = (w &&& 0xFF#32).toNat := toNat_extractLsb'_eq_and (k := 0) (by decide) w

theorem sField_eq_and (w : Word) : sField w = (w >>> 12 &&& 0x1FF#32).toNat := toNat_extractLsb'_eq_and (by decide) w

theorem nField_eq_and (w : Word) : nField w = (w &&& 0x1FF#32).toNat := toNat_extractLsb'_eq_and (k := 0) (by decide) w

/-- Settles O1: the decoder inverts the encoder, and each format is known by its fixed bits and its fields. -/
theorem opcodeMapIsExact : Obligations.OpcodeMapIsExact := by
  intro w
  simp only [decode_eq_ok_iff, ← sField_eq_and]
  simp only [← dField_eq_and, ← nField_eq_and, Instr.WellFormed, Instr.wellFormed, true_and, Bool.and_eq_true,
    decide_eq_true_eq]
  exact ⟨eq_comm, eq_comm, fun _ => formatB_eq_iff, fun _ _ => formatR_eq_iff, fun _ _ => formatR_eq_iff, eq_comm,
    fun _ => formatL_eq_iff, eq_comm, fun _ => formatL_eq_iff⟩

end Sys2Proof
end

section
/-! PROOFS. The words no row matches: by the rows, by opcode and reserved bit, and what they do. -/

namespace Sys2Proof.Machine

/-- A row does not stand before another one that matches the same word. -/
theorem not_lt_of_match {w : Word} {j k : Nat} {r r' : OpRow} (hj : opTable[j]? = some r) (hk : opTable[k]? = some r')
    (h : w &&& r.mask = r.value) (h' : w &&& r'.mask = r'.value) : ¬j < k := by
  intro hlt
  obtain ⟨hjl, rfl⟩ := List.getElem?_eq_some_iff.mp hj
  obtain ⟨hkl, rfl⟩ := List.getElem?_eq_some_iff.mp hk
  have hapart := List.pairwise_iff_getElem.mp opTable_apart j k hjl hkl hlt
  exact absurd ((hits_iff ..).mpr h') (Bool.eq_false_iff.mp (not_both_hit hapart ((hits_iff ..).mpr h)))

theorem decode_of_match {w : Word} {r : OpRow} (hm : r ∈ opTable) (h : w &&& r.mask = r.value) :
    decode w = .ok (r.command w) :=
  (decode_ok_iff ..).mpr ⟨r, hm, (hits_iff ..).mpr h, rfl⟩

theorem decode_error_iff_forall_ne (w : Word) :
    (∃ e, decode w = .error e) ↔ ∀ r ∈ opTable, w &&& r.mask ≠ r.value := by
  simp only [decode_error_iff, ← Bool.not_eq_true, hits_iff, ne_eq]

/-- Settles O5: the rows are apart from each other, and the decoder answers by them. -/
theorem oneRowMatchesOrIllegal : Obligations.OneRowMatchesOrIllegal := by
  refine ⟨fun w j k r r' hj hk h h' => ?_, fun w r hm h => ?_, fun w h => ?_⟩
  · exact Nat.le_antisymm (Nat.not_lt.mp (not_lt_of_match hk hj h' h)) (Nat.not_lt.mp (not_lt_of_match hj hk h h'))
  · exact ⟨decode_of_match hm h, runCommand_of_ok (decode_of_match hm h)⟩
  · obtain ⟨e, he⟩ := (decode_error_iff_forall_ne w).mpr h
    exact ⟨⟨e, he⟩, runCommand_of_error he⟩

/-- The opcode of a row: bits 31:24 of its match value (R65, R72). -/
def rowOpcode (r : OpRow) : Nat := (opField r.value).toNat

/-- The reserved bits of a row: the bits below the opcode that its mask fixes (R66). -/
def rowReserved (r : OpRow) : Word := r.mask &&& 0x00FFFFFF#32

/-- A row fixes all of the opcode, and below it every fixed bit is 0 (R67 to R70). -/
theorem row_fixed_bits : ∀ r ∈ opTable, r.mask = 0xFF000000#32 ||| rowReserved r ∧
    r.value &&& 0xFF000000#32 = r.value ∧ r.value &&& rowReserved r = 0#32 ∧ rowOpcode r = (r.value >>> 24).toNat := by
  decide

/-- The opcode says which bits are reserved: no two rows share one (R72). -/
theorem rowReserved_eq_of_rowOpcode_eq :
    ∀ r ∈ opTable, ∀ r' ∈ opTable, rowOpcode r = rowOpcode r' → rowReserved r = rowReserved r' := by decide

/-- The opcode's bits of a word weigh 2^24 times the opcode (R65). -/
theorem toNat_and_opcodeMask (w : Word) : (w &&& 0xFF000000#32).toNat = (w >>> 24).toNat * 2 ^ 24 := by
  have hmask : 0xFF000000#32 = BitVec.allOnes 32 <<< 24 := by decide
  have hlt := w.isLt
  rw [hmask, ← BitVec.shiftLeft_ushiftRight, BitVec.toNat_shiftLeft, BitVec.toNat_ushiftRight, Nat.shiftLeft_eq, Nat.shiftRight_eq_div_pow]
  omega

theorem and_opcodeMask_eq_iff (v w : Word) :
    v &&& 0xFF000000#32 = w &&& 0xFF000000#32 ↔ (v >>> 24).toNat = (w >>> 24).toNat := by
  rw [← BitVec.toNat_inj, toNat_and_opcodeMask, toNat_and_opcodeMask]
  omega

/-- A word matches two disjoint masks at once when it matches each of them. -/
theorem and_or_eq_iff {w v a b : Word} (ha : v &&& a = v) (hb : v &&& b = 0#32) (hab : a &&& b = 0#32) :
    w &&& (a ||| b) = v ↔ w &&& a = v ∧ w &&& b = 0#32 := by
  constructor
  · intro h
    have hwa : w &&& (a ||| b) &&& a = w &&& a := by
      rw [BitVec.and_assoc, BitVec.and_or_distrib_right, BitVec.and_self, BitVec.and_comm b, hab, BitVec.or_zero]
    have hwb : w &&& (a ||| b) &&& b = w &&& b := by
      rw [BitVec.and_assoc, BitVec.and_or_distrib_right, BitVec.and_self, hab, BitVec.zero_or]
    exact ⟨by rw [← hwa, h, ha], by rw [← hwb, h, hb]⟩
  · rintro ⟨h, h'⟩
    rw [BitVec.and_or_distrib_left, h, h', BitVec.or_zero]

/-- A row matches the words with its opcode and no reserved bit set (R66). -/
theorem match_iff {r : OpRow} (hm : r ∈ opTable) (w : Word) :
    w &&& r.mask = r.value ↔ (w >>> 24).toNat = rowOpcode r ∧ w &&& rowReserved r = 0#32 := by
  obtain ⟨hmask, hvalue, hzero, hop⟩ := row_fixed_bits r hm
  have hdisj : 0xFF000000#32 &&& rowReserved r = 0#32 := by
    rw [rowReserved, BitVec.and_comm, BitVec.and_assoc]; exact BitVec.and_zero
  rw [hop, ← and_opcodeMask_eq_iff, hvalue, hmask]
  exact and_or_eq_iff hvalue hzero hdisj

/-- No row matches a word when its opcode is in no row, or is a row's and a bit reserved there is set (R73). -/
theorem decode_error_iff_opcode (w : Word) :
    (∃ e, decode w = .error e) ↔ (w >>> 24).toNat ∉ opTable.map rowOpcode ∨
      ∃ p ∈ opTable.map fun r => (rowOpcode r, rowReserved r), (w >>> 24).toNat = p.1 ∧ w &&& p.2 ≠ 0#32 := by
  rw [decode_error_iff_forall_ne]
  simp only [List.mem_map, exists_exists_and_eq_and]
  constructor
  · intro h
    by_cases hop : ∃ r ∈ opTable, rowOpcode r = (w >>> 24).toNat
    · obtain ⟨r, hm, hr⟩ := hop
      exact .inr ⟨r, hm, hr.symm, fun hz => h r hm ((match_iff hm w).mpr ⟨hr.symm, hz⟩)⟩
    · exact .inl hop
  · rintro (hop | ⟨r, hm, hr, hres⟩) r' hm' h'
    · exact hop ⟨r', hm', ((match_iff hm' w).mp h').1.symm⟩
    · obtain ⟨hr', hz⟩ := (match_iff hm' w).mp h'
      rw [rowReserved_eq_of_rowOpcode_eq r hm r' hm' (hr.symm.trans hr')] at hres
      exact hres hz

/-- The opcodes in no row, as R73 lists them. -/
theorem not_mem_opcodes_iff (op : Nat) : op ∉ opTable.map rowOpcode ↔
    (0x05 ≤ op ∧ op ≤ 0x0E) ∨ (0x12 ≤ op ∧ op ≤ 0x1F) ∨ 0x21 ≤ op := by
  have hops : opTable.map rowOpcode = [0x00, 0x01, 0x02, 0x03, 0x04, 0x0F, 0x10, 0x11, 0x20] := by decide
  simp only [hops, List.mem_cons, List.not_mem_nil, or_false]
  omega

/-- The rows' opcodes with the bits reserved under them, as R67 to R70 give these. -/
theorem map_rowReserved : opTable.map (fun r => (rowOpcode r, rowReserved r)) =
    [(0x00, 0x00FFFFFF#32), (0x01, 0x00FFFFFF#32), (0x02, 0x00FFFF00#32), (0x03, 0x00E00E00#32),
      (0x04, 0x00E00E00#32), (0x0F, 0x00FFFFFF#32), (0x10, 0x00FFFE00#32), (0x11, 0x00FFFFFF#32),
      (0x20, 0x00FFFE00#32)] := by decide

/-- Settles O6: the rejected words by opcode and reserved bit, the table's rows written out. -/
theorem illegalEncodingsAreUnlistedOrReserved : Obligations.IllegalEncodingsAreUnlistedOrReserved := by
  intro w
  refine ⟨?_, fun s e he => runCommand_of_error he s⟩
  rw [decode_error_iff_opcode, not_mem_opcodes_iff, map_rowReserved]

end Sys2Proof.Machine
end

section
/-! PROOFS. The assembler's words by OR, as R76 writes them. -/

namespace Sys2Proof.Machine

/-- A number that fits `v` bits has no bit at or above position `v`. -/
theorem testBit_of_lt_of_le {v x k : Nat} (h : x < 2 ^ v) (hk : v ≤ k) : x.testBit k = false :=
  Nat.testBit_lt_two_pow (h.trans_le (Nat.pow_le_pow_right (by decide) hk))

/-- A number that fits its field stands there with all its bits. -/
theorem getLsbD_ofNat_of_lt {v x : Nat} (h : x < 2 ^ v) (k : Nat) : (BitVec.ofNat v x).getLsbD k = x.testBit k := by
  rw [BitVec.getLsbD_ofNat]
  rcases Nat.lt_or_ge k v with hk | hk
  · rw [decide_eq_true hk, Bool.true_and]
  · rw [testBit_of_lt_of_le h hk, Bool.and_false]

/-- The word of format B is the opcode and the byte OR-ed together (R68, R76). -/
theorem formatB_eq_or (op : BitVec 8) {d : Nat} (hd : d ≤ 255) : formatB op d = formatN op ||| BitVec.ofNat 32 d := by
  refine BitVec.eq_of_getLsbD_eq fun k hk => ?_
  rw [BitVec.getLsbD_or, getLsbD_formatB, getLsbD_formatN, getLsbD_ofNat_of_lt (v := 8) (by omega),
    getLsbD_ofNat_of_lt (v := 32) (by omega)]
  rcases Nat.lt_or_ge k 8 with h8 | h8
  · rw [if_pos h8, if_pos (by omega), Bool.false_or]
  · rw [if_neg (by omega), testBit_of_lt_of_le (v := 8) (by omega) h8, Bool.or_false]

/-- The word of format L is the opcode and the count OR-ed together (R70, R76). -/
theorem formatL_eq_or (op : BitVec 8) {n : Nat} (hn : n ≤ 511) : formatL op n = formatN op ||| BitVec.ofNat 32 n := by
  refine BitVec.eq_of_getLsbD_eq fun k hk => ?_
  rw [BitVec.getLsbD_or, getLsbD_formatL, getLsbD_formatN, getLsbD_ofNat_of_lt (v := 9) (by omega),
    getLsbD_ofNat_of_lt (v := 32) (by omega)]
  rcases Nat.lt_or_ge k 9 with h9 | h9
  · rw [if_pos h9, if_pos (by omega), Bool.false_or]
  · rw [if_neg (by omega), testBit_of_lt_of_le (v := 9) (by omega) h9, Bool.or_false]

/-- The word of format R is format L's with the index OR-ed in, twelve bits up (R69, R70). -/
theorem formatR_eq_formatL_or (op : BitVec 8) {a : Nat} (n : Nat) (ha : a ≤ 511) :
    formatR op a n = formatL op n ||| BitVec.ofNat 32 a <<< 12 := by
  refine BitVec.eq_of_getLsbD_eq fun k hk => ?_
  rw [BitVec.getLsbD_or, BitVec.getLsbD_shiftLeft, decide_eq_true hk, Bool.true_and, getLsbD_formatR, getLsbD_formatL,
    getLsbD_ofNat_of_lt (v := 9) (by omega) (k - 12), getLsbD_ofNat_of_lt (v := 32) (by omega)]
  rcases Nat.lt_or_ge k 12 with h12 | h12
  · simp [h12, show k < 24 by omega]
  · rcases Nat.lt_or_ge k 21 with h21 | h21
    · simp [show ¬k < 9 by omega, show ¬k < 12 by omega, h21, show k < 24 by omega]
    · have hbit : a.testBit (k - 12) = false := testBit_of_lt_of_le (v := 9) (by omega) (by omega)
      simp [show ¬k < 9 by omega, show ¬k < 12 by omega, show ¬k < 21 by omega, hbit]

/-- The word of format R is the opcode, the index and the count OR-ed together (R69, R76). -/
theorem formatR_eq_or (op : BitVec 8) {a n : Nat} (ha : a ≤ 511) (hn : n ≤ 511) :
    formatR op a n = formatN op ||| BitVec.ofNat 32 a <<< 12 ||| BitVec.ofNat 32 n := by
  rw [formatR_eq_formatL_or op n ha, formatL_eq_or op hn, BitVec.or_assoc, BitVec.or_comm (BitVec.ofNat 32 n),
    ← BitVec.or_assoc]

/-- The assembler gives a command its word unless an operand does not fit (R76). -/
theorem assemble_eq_ite {i : Instr} {p : Prop} [Decidable p] {v : Word} (hp : i.WellFormed ↔ ¬p)
    (hv : ¬p → encode i = v) : assemble i = if p then none else some v := by
  by_cases h : p
  · rw [assemble, if_neg (fun hi => hp.mp hi h), if_pos h]
  · rw [assemble, if_pos (hp.mpr h), if_neg h, hv h]

/-- The operand check of a command with one operand (R76). -/
theorem operandFits_iff (top n : Nat) : decide (n ≤ top) = true ↔ ¬n > top :=
  decide_eq_true_iff.trans Nat.not_lt.symm

/-- The operand check of a command with an index and a count (R76). -/
theorem operandsFit_iff (top a n : Nat) : (decide (a ≤ top) && decide (n ≤ top)) = true ↔ ¬(a > top ∨ n > top) := by
  rw [Bool.and_eq_true, operandFits_iff, operandFits_iff, not_or]

/-- Settles O7: the checks are those of the well-formed commands, and the words their formats by OR. -/
theorem assemblerWordsAndRejections : Obligations.AssemblerWordsAndRejections := by
  refine ⟨rfl, rfl, rfl, rfl, fun d => ?_, fun a n => ?_, fun a n => ?_, fun n => ?_, fun n => ?_⟩
  · exact assemble_eq_ite (operandFits_iff 255 d) fun h => formatB_eq_or 0x02#8 (Nat.not_lt.mp h)
  · exact assemble_eq_ite (operandsFit_iff 511 a n) fun h =>
      formatR_eq_or 0x03#8 (Nat.not_lt.mp (not_or.mp h).1) (Nat.not_lt.mp (not_or.mp h).2)
  · exact assemble_eq_ite (operandsFit_iff 511 a n) fun h =>
      formatR_eq_or 0x04#8 (Nat.not_lt.mp (not_or.mp h).1) (Nat.not_lt.mp (not_or.mp h).2)
  · exact assemble_eq_ite (operandFits_iff 511 n) fun h => formatL_eq_or 0x10#8 (Nat.not_lt.mp h)
  · exact assemble_eq_ite (operandFits_iff 511 n) fun h => formatL_eq_or 0x20#8 (Nat.not_lt.mp h)

end Sys2Proof.Machine
end

section
/-! PROOFS. The pseudo-instructions: their transactions, and the checksum a range's two commands leave. -/

namespace Sys2Proof.Machine

theorem cmdWrite_of_wellFormed (c : Config) {i : Instr} (h : i.WellFormed) :
    cmdWrite c i = some (wr c 0x0000 (encode i)) := by
  rw [cmdWrite, assemble, if_pos h, Option.map_some]

@[simp] theorem length_byteWrites (c : Config) (off : Nat) (bs : List Byte) :
    (byteWrites c off bs).length = bs.length := by
  induction bs generalizing off with
  | nil => rfl
  | cons b rest ih => rw [byteWrites, List.length_cons, ih, List.length_cons]

/-- A load's writes are four bytes of address apart (R46, R78). -/
theorem getElem?_byteWrites (c : Config) (off : Nat) (bs : List Byte) (k : Nat) :
    (byteWrites c off bs)[k]? = bs[k]?.map fun b => wr c (off + 4 * k) (b.zeroExtend 32) := by
  induction bs generalizing off k with
  | nil => rfl
  | cons b rest ih =>
    cases k with
    | zero => rfl
    | succ k =>
      rw [byteWrites, List.getElem?_cons_succ, ih, List.getElem?_cons_succ, show off + 4 + 4 * k = off + 4 * (k + 1) by
        omega]

theorem getElem?_byteWrites_of_some {c : Config} {bs : List Byte} {k : Nat} {b : Byte} (base a : Nat)
    (h : bs[k]? = some b) :
    (byteWrites c (base + 4 * a) bs)[k]? = some (wr c (base + 4 * (a + k)) (b.zeroExtend 32)) := by
  rw [getElem?_byteWrites, h, Option.map_some, show base + 4 * a + 4 * k = base + 4 * (a + k) by omega]

/-- CRC_INIT, then a range of written bytes: CRC_OUT is their checksum (R87, R88, R90, R91). -/
theorem crcRange_after_crcInit {b : Buffer} {s u : State} {a : Nat} {bs : List Byte} (hu : execCrcInit s = .next u)
    (h : a + bs.length ≤ 261) (hh : Holds (s.buffer b) a bs) :
    ∃ t, crcRange b a bs.length u = .next t ∧ fin t.cfg t.crc = checksum s.cfg bs := by
  cases hu
  cases b with
  | tx => exact ⟨_, crcRange_of_holds h hh, rfl⟩
  | rx => exact ⟨_, crcRange_of_holds h hh, rfl⟩

/-- Two commands, each of which completes (R75). -/
theorem execAll_pair {i j : Instr} {s u t : State} (hi : exec i s = .next u) (hj : exec j u = .next t) :
    execAll [i, j] s = .next t := by
  simp only [execAll, hi, hj]

/-- Settles O8: the expansions by the assembler's words, and the checksum by the two commands' effects. -/
theorem pseudoInstructionsExpand : Obligations.PseudoInstructionsExpand := by
  refine ⟨fun c a n ha hn => ?_, fun _ _ => rfl, fun _ => rfl, fun c a bs => ?_, fun s a bs h hh => ?_,
    fun s a bs h hh => ?_⟩
  · have hfit : (decide (a ≤ 511) && decide (n ≤ 511)) = true := by rw [decide_eq_true ha, decide_eq_true hn]; rfl
    have htx := cmdWrite_of_wellFormed c (i := .crcTx a n) hfit
    have hrx := cmdWrite_of_wellFormed c (i := .crcRx a n) hfit
    rw [HostStmt.expand, htx, HostStmt.expand, hrx]
    exact ⟨rfl, rfl⟩
  · exact ⟨_, _, rfl, rfl, length_byteWrites .., length_byteWrites .., fun k b hb =>
      ⟨getElem?_byteWrites_of_some 0x1000 a hb, getElem?_byteWrites_of_some 0x2000 a hb⟩⟩
  · obtain ⟨t, ht, hsum⟩ := crcRange_after_crcInit (b := .tx) rfl h hh
    exact ⟨t, execAll_pair rfl ht, hsum⟩
  · obtain ⟨t, ht, hsum⟩ := crcRange_after_crcInit (b := .rx) rfl h hh
    exact ⟨t, execAll_pair rfl ht, hsum⟩

end Sys2Proof.Machine
end

section
/-! PROOFS. The generator's arithmetic: Upd is linear, and a byte equal to the register's high byte shifts it out. -/

namespace Sys2Proof.Machine

/-- One shift with its branch folded into the term that is XORed in (R85). -/
theorem crcShift_eq_xor (poly r : Half) : crcShift poly r = r <<< 1 ^^^ if r.getLsbD 15 then poly else 0#16 := by
  unfold crcShift
  split
  · rfl
  · rw [BitVec.xor_zero]

/-- Where both registers shift out a 1, the two polynomials cancel. -/
theorem crcShift_xor (poly r r' : Half) : crcShift poly (r ^^^ r') = crcShift poly r ^^^ crcShift poly r' := by
  simp only [crcShift_eq_xor, BitVec.shiftLeft_xor_distrib, BitVec.getLsbD_xor]
  have fedBack (x y : Bool) : (if x ^^ y then poly else 0#16) =
      (if x then poly else 0#16) ^^^ if y then poly else 0#16 := by
    cases x <;> cases y <;> simp
  rw [fedBack]
  ac_rfl

theorem crcShifts_xor (poly : Half) (k : Nat) (r r' : Half) :
    crcShifts poly k (r ^^^ r') = crcShifts poly k r ^^^ crcShifts poly k r' := by
  induction k generalizing r r' with
  | zero => rfl
  | succ k ih => rw [crcShifts, crcShift_xor, ih, crcShifts, crcShifts]

theorem reverse_xor {n : Nat} (b b' : BitVec n) : (b ^^^ b').reverse = b.reverse ^^^ b'.reverse := by
  ext i hi
  simp only [BitVec.getElem_reverse, BitVec.getElem_xor, BitVec.getMsbD_xor]

theorem crcInput_xor (c : Config) (b b' : Byte) : crcInput c (b ^^^ b') = crcInput c b ^^^ crcInput c b' := by
  unfold crcInput
  split
  · exact reverse_xor b b'
  · rfl

/-- Settles O28: the byte's entry and each shift are linear. -/
theorem updIsLinear : Obligations.UpdIsLinear := by
  intro c r r' b b'
  simp only [upd, ← crcShifts_xor, crcInput_xor, BitVec.setWidth_xor, BitVec.shiftLeft_xor_distrib]
  congr 1
  ac_rfl

/-- Without input reflection the byte enters as it is (R85). -/
theorem upd_of_not_refin {c : Config} (h : c.refin = false) (r : Half) (b : Byte) :
    upd c r b = crcShifts c.poly 8 (r ^^^ (b.zeroExtend 16 <<< 8)) := by
  rw [upd, crcInput, h, if_neg Bool.false_ne_true]

/-- While only zeros leave the register, the polynomial never enters it. -/
theorem crcShifts_eq_shiftLeft (poly : Half) {k : Nat} {r : Half} (h : r.toNat * 2 ^ k < 2 ^ 16) :
    crcShifts poly k r = r <<< k := by
  induction k generalizing r with
  | zero => rw [crcShifts, BitVec.shiftLeft_zero]
  | succ k ih =>
    have hpow : r.toNat * 2 * 2 ^ k < 2 ^ 16 := by rwa [Nat.mul_assoc, ← Nat.pow_succ']
    have hlt : r.toNat * 2 < 2 ^ 16 := (Nat.le_mul_of_pos_right _ (Nat.two_pow_pos k)).trans_lt hpow
    have hbit : r.getLsbD 15 = false := Nat.testBit_lt_two_pow (by omega)
    have hdouble : (r <<< 1).toNat = r.toNat * 2 := by
      rw [BitVec.toNat_shiftLeft, Nat.shiftLeft_eq, Nat.mod_eq_of_lt hlt]
    rw [crcShifts, crcShift, if_neg (Bool.eq_false_iff.mp hbit), ih (by rwa [hdouble]),
      ← BitVec.shiftLeft_add, Nat.add_comm]

/-- A register without its high byte is its low byte. -/
theorem xor_highByte (v : Half) : v ^^^ ((w16 .be v).1.zeroExtend 16 <<< 8) = (w16 .be v).2.zeroExtend 16 := by
  refine BitVec.eq_of_getLsbD_eq fun i hi => ?_
  by_cases h : i < 8
  · simp [w16, hi, h]
  · have hbit : 8 + (i - 8) = i := by omega
    simp [w16, hi, h, hbit, show i - 8 < 8 by omega]

/-- Feeding a register its own high byte moves the low byte up (R85). -/
theorem upd_highByte {c : Config} (h : c.refin = false) (v : Half) :
    upd c v (w16 .be v).1 = (w16 .be v).2.zeroExtend 16 <<< 8 := by
  have hlt : ((w16 .be v).2.zeroExtend 16).toNat * 2 ^ 8 < 2 ^ 16 := by
    rw [BitVec.toNat_setWidth]; omega
  rw [upd_of_not_refin h, xor_highByte, crcShifts_eq_shiftLeft _ hlt]

/-- Feeding a register that is one byte above zeros that byte leaves 0 (R85). -/
theorem upd_shiftLeft_self {c : Config} (h : c.refin = false) (b : Byte) : upd c (b.zeroExtend 16 <<< 8) b = 0#16 := by
  rw [upd_of_not_refin h, BitVec.xor_self, crcShifts_eq_shiftLeft _ (by decide)]
  rfl

/-- A register fed its own two bytes, the high one first, is 0. -/
theorem feed_w16_self {c : Config} (h : c.refin = false) (v : Half) :
    feed c v [(w16 .be v).1, (w16 .be v).2] = 0#16 := by
  rw [feed_cons, feed_cons, feed_nil, upd_highByte h, upd_shiftLeft_self h]

/-- Settles O31: the trailer is the register after the body, fed to that register. -/
theorem frameWithTrailerLeavesZero : Obligations.FrameWithTrailerLeavesZero := by
  intro c p hin hout hxor horder
  have hsum (bs : List Byte) : checksum c bs = raw c bs := by
    rw [checksum, fin, hout, hxor, if_neg Bool.false_ne_true, BitVec.xor_zero]
  rw [frame, raw, feed_append, hsum, horder]
  exact feed_w16_self hin (raw c (frameBody c p))

end Sys2Proof.Machine
end

section
/-! PROOFS. The CRC commands: their operands, their effects, and a sequence fed in pieces. -/

namespace Sys2Proof.Machine

/-- A word with a row's opcode and a bit set that the row reserves is no command (R73). -/
theorem decode_error_of_reserved {w : Word} {r : OpRow} (hm : r ∈ opTable) (hop : (w >>> 24).toNat = rowOpcode r)
    (h : w &&& rowReserved r ≠ 0#32) : ∃ e, decode w = .error e :=
  (decode_error_iff_opcode w).mpr (.inr ⟨_, List.mem_map_of_mem hm, hop, h⟩)

/-- A word with a row's opcode that the row does not match is no command (R73). -/
theorem decode_error_of_ne {w : Word} {r : OpRow} (hm : r ∈ opTable) (hop : (w >>> 24).toNat = rowOpcode r)
    (h : w &&& r.mask ≠ r.value) : ∃ e, decode w = .error e :=
  decode_error_of_reserved hm hop fun hz => h ((match_iff hm w).mpr ⟨hop, hz⟩)

/-- Settles O24: the effect is the definition's, and the one word is the row's match value. -/
theorem crcInitLoadsInit : Obligations.CrcInitLoadsInit := by
  refine ⟨fun s => rfl, fun w => ?_⟩
  obtain ⟨-, hinit, -⟩ := opcodeMapIsExact w
  refine ⟨hinit, fun hop hne => ?_⟩
  have hrow : opTable[1] ∈ opTable := List.getElem_mem _
  refine decode_error_of_ne hrow (by rw [hop]; rfl) fun hmatch => hne ?_
  exact BitVec.and_allOnes.symm.trans hmatch

/-- A one-bit byte over a zero register reaches bit 15 at the last shift, which leaves the polynomial (R85). -/
theorem upd_zero_one {c : Config} (h : c.refin = false) : upd c 0x0000#16 0x01#8 = c.poly := by
  have hseven : crcShifts c.poly 7 0x0100#16 = 0x8000#16 := crcShifts_eq_shiftLeft _ (by decide)
  calc upd c 0x0000#16 0x01#8 = crcShifts c.poly 8 0x0100#16 := upd_of_not_refin h ..
    _ = crcShift c.poly (crcShifts c.poly 7 0x0100#16) := rfl
    _ = crcShift c.poly 0x8000#16 := by rw [hseven]
    _ = 0#16 ^^^ c.poly := rfl
    _ = c.poly := BitVec.zero_xor

/-- Settles O25: the effect is the definition's, and a byte over a zero register shows the polynomial. -/
theorem crcByteFeedsOneByte : Obligations.CrcByteFeedsOneByte := by
  refine ⟨fun s d _ => rfl, fun w => ?_, fun w hop hres => ?_, by decide, by decide, fun c hin => ⟨?_, ?_⟩⟩
  · obtain ⟨-, -, hbyte, -⟩ := opcodeMapIsExact w
    exact hbyte
  · have hrow : opTable[2] ∈ opTable := List.getElem_mem _
    have hreserved : rowReserved opTable[2] = 0x00FFFF00#32 := by decide
    exact decode_error_of_reserved hrow (by rw [hop]; rfl) (by rwa [hreserved])
  · exact upd_shiftLeft_self hin 0#8
  · exact upd_zero_one hin

/-- A range past the buffer's end (R90, R91). -/
theorem crcRange_of_gt (b : Buffer) {a n : Nat} (h : 261 < a + n) (s : State) :
    crcRange b a n s = raise .badRange s := by
  rcases crcRange_cases b a n s with ⟨-, e⟩ | ⟨hle, -⟩ | ⟨hle, -⟩
  · exact e
  · omega
  · omega

/-- A range with an unwritten byte faults at the first one (R40, R90, R91). -/
theorem crcRange_of_unwritten {b : Buffer} {a n k : Nat} {s : State} (h : a + n ≤ 261) (hk : k < n)
    (hnone : Memory.read (s.buffer b) (a + k) = none) :
    ∃ j, j ≤ k ∧ Memory.read (s.buffer b) (a + j) = none ∧ crcRange b a n s = .fault (.unwrittenByte b (a + j)) := by
  have hfit : rangeFits a n = true := (rangeFits_iff ..).mpr h
  cases hr : readRange b (s.buffer b) a n with
  | ok bs =>
    obtain ⟨rfl, hh⟩ := (readRange_ok_iff ..).mp hr
    have hwritten := hh k hk
    rw [hnone, List.getElem?_eq_getElem hk] at hwritten
    cases hwritten
  | error f =>
    obtain ⟨j, -, rfl, hj, hfirst⟩ := (readRange_error_iff ..).mp hr
    refine ⟨j, Nat.not_lt.mp fun hlt => hfirst k hlt hnone, hj, ?_⟩
    rw [crcRange, if_pos hfit, hr]

/-- Settles O26, by the three ends of a CRC over a range. -/
theorem crcTxFeedsRange : Obligations.CrcTxFeedsRange := by
  refine ⟨fun s a n h => crcRange_of_gt .tx h s, fun s a bs h hh => crcRange_of_holds (b := .tx) h hh,
    fun s a n k h hk hnone => crcRange_of_unwritten (b := .tx) h hk hnone, fun w => ?_⟩
  obtain ⟨-, -, -, htx, -⟩ := opcodeMapIsExact w
  exact htx

/-- Settles O27, by the three ends of a CRC over a range. -/
theorem crcRxFeedsRange : Obligations.CrcRxFeedsRange := by
  refine ⟨fun s a n h => crcRange_of_gt .rx h s, fun s a bs h hh => crcRange_of_holds (b := .rx) h hh,
    fun s a n k h hk hnone => crcRange_of_unwritten (b := .rx) h hk hnone, fun w => ?_⟩
  obtain ⟨-, -, -, -, hrx, -⟩ := opcodeMapIsExact w
  exact hrx

/-- Settles O29, by running the generator on each value. -/
theorem crcReferenceValues : Obligations.CrcReferenceValues :=
  ⟨rfl, by decide +kernel, by decide +kernel, by decide +kernel⟩

/-- A CRC command that ends OK leaves both buffers (R90, R91). -/
theorem buffer_completed_setCrc (b : Buffer) (s : State) (v : Half) :
    ((s.setCrc v).setStatus (s.setCrc v).status.completed).buffer b = s.buffer b := by
  cases b <;> rfl

/-- A range that completes can be fed in two pieces (R92). -/
theorem crcRange_split {b : Buffer} {s t : State} {a n m : Nat} (h : crcRange b a (n + m) s = .next t)
    (hfit : a + n + m ≤ 261) : ∃ u, crcRange b a n s = .next u ∧ crcRange b (a + n) m u = .next t := by
  rcases crcRange_cases b a (n + m) s with ⟨hgt, -⟩ | ⟨-, bs, hlen, hh, e⟩ | ⟨-, k, -, -, e⟩
  · omega
  · obtain ⟨xs, ys, rfl, rfl, rfl⟩ : ∃ xs ys, xs ++ ys = bs ∧ xs.length = n ∧ ys.length = m :=
      ⟨bs.take n, bs.drop n, List.take_append_drop .., by simp; omega, by simp; omega⟩
    obtain ⟨hx, hy⟩ := (Holds_append ..).mp hh
    refine ⟨_, crcRange_of_holds (by omega) hx, ?_⟩
    rw [← h, e, feed_append, crcRange_of_holds (by omega) (by rwa [buffer_completed_setCrc])]
    rfl
  · rw [h] at e
    cases e

/-- Single bytes leave the register that feeding them as one sequence leaves (R89, R92). -/
theorem execAll_crcByte (bs : List Byte) (s : State) :
    ∃ u, execAll (bs.map fun b => .crcByte b.toNat) s = .next u ∧ u.crc = feed s.cfg s.crc bs := by
  induction bs generalizing s with
  | nil => exact ⟨s, rfl, rfl⟩
  | cons b bs ih =>
    have hstep : exec (.crcByte b.toNat) s = complete (s.setCrc (upd s.cfg s.crc b)) := by
      rw [exec, execCrcByte, byteOperand, BitVec.ofNat_toNat, BitVec.setWidth_eq]
    obtain ⟨u, hu, hcrc⟩ := ih { s with crc := upd s.cfg s.crc b, status := { s.status with result := .ok } }
    refine ⟨u, ?_, hcrc⟩
    rw [List.map_cons, execAll, hstep, complete_eq]
    exact hu

/-- Settles O30, by the chaining law of `feed`: ranges split in two, and bytes one command each. -/
theorem feedingInPiecesIsFeedingWhole : Obligations.FeedingInPiecesIsFeedingWhole := by
  refine ⟨fun s t a n m h hfit => ?_, fun s t a n m h hfit => ?_, fun s a bs h hh => ?_, fun s t w rest bs hp h => ?_⟩
  · obtain ⟨u, hu, ht⟩ := crcRange_split (b := .tx) h hfit
    exact execAll_pair hu ht
  · obtain ⟨u, hu, ht⟩ := crcRange_split (b := .rx) h hfit
    exact execAll_pair hu ht
  · obtain ⟨u, hu, hcrc⟩ := execAll_crcByte bs s
    exact ⟨_, u, crcRange_of_holds (b := .tx) h hh, hu, hcrc⟩
  · cases (step_wr_crc hp).symm.trans h
    exact execAll_crcByte bs _

end Sys2Proof.Machine
end

section
/-! PROOFS. The frame as a byte sequence, and what the serializer leaves: BUILD_CMD and BUILD_QUERY. -/

namespace Sys2Proof.Machine

/-- The bytes that stand in a buffer from an index on are determined by their number. -/
theorem Holds.eq_of_length_eq {m : Memory} {i : Nat} {as bs : List Byte} (ha : Holds m i as) (hb : Holds m i bs)
    (hl : as.length = bs.length) : as = bs := by
  refine List.ext_getElem? fun k => ?_
  by_cases hk : k < as.length
  · rw [← ha k hk, hb k (hl ▸ hk)]
  · rw [List.getElem?_eq_none (by omega), List.getElem?_eq_none (by omega)]

/-- A byte that was never written is not among bytes that stand in the buffer (R40). -/
theorem Holds.read_ne_none {m : Memory} {i k : Nat} {bs : List Byte} (h : Holds m i bs) (hk : k < bs.length) :
    Memory.read m (i + k) ≠ none := by
  rw [h k hk, List.getElem?_eq_getElem hk]
  exact Option.some_ne_none _

/-- Writing bytes that stand there already changes no byte. -/
theorem read_writeAll_of_holds {m : Memory} {i : Nat} {bs : List Byte} (h : Holds m i bs) (j : Nat) :
    Memory.read (m.writeAll i bs) j = Memory.read m j := by
  rw [Memory.read_writeAll]
  split
  · next hj =>
    rw [← h (j - i) (by omega)]
    congr 1
    omega
  · rfl

/-- The four header bytes of a datagram of this configuration, whatever its kind and length byte are (R100). -/
def headerOf (c : Config) (kind l : Byte) : List Byte := [(markerBytes c).1, (markerBytes c).2, kind, l]

@[simp] theorem length_headerOf (c : Config) (kind l : Byte) : (headerOf c kind l).length = 4 := rfl

/-- A header stands in a buffer when its four bytes do. -/
theorem holds_headerOf_iff (c : Config) (kind l : Byte) (m : Memory) :
    Holds m 0 (headerOf c kind l) ↔ Memory.read m 0 = some (markerBytes c).1 ∧
      Memory.read m 1 = some (markerBytes c).2 ∧ Memory.read m 2 = some kind ∧ Memory.read m 3 = some l := by
  simp [headerOf, Holds_cons]

/-- A frame's header is that of P_KIND and of its payload's length (R100, R102). -/
theorem frameBody_eq (c : Config) (p : List Byte) :
    frameBody c p = headerOf c c.kind (lengthByte p.length) ++ p := rfl

/-- The frame with its payload and its trailer together (R100). -/
theorem frame_eq (c : Config) (p : List Byte) :
    frame c p = headerOf c c.kind (lengthByte p.length) ++
      (p ++ [(w16 c.order (checksum c (frameBody c p))).1, (w16 c.order (checksum c (frameBody c p))).2]) :=
  List.append_assoc ..

/-- The bytes of a frame that its checksum is over are its body (R100). -/
theorem take_frame (c : Config) (p : List Byte) : (frame c p).take (4 + p.length) = frameBody c p :=
  List.take_left' (length_frameBody c p)

/-- The length byte of a payload that fits it (R100). -/
theorem toNat_lengthByte {n : Nat} (h : n ≤ 255) : (lengthByte n).toNat = n :=
  (BitVec.toNat_ofNat ..).trans (Nat.mod_eq_of_lt (by omega))

/-- The two bytes behind a frame's payload are W16 of its checksum (R100). -/
theorem getElem?_frame_trailer (c : Config) (p : List Byte) :
    (frame c p)[4 + p.length]? = some (w16 c.order (checksum c (frameBody c p))).1 ∧
      (frame c p)[5 + p.length]? = some (w16 c.order (checksum c (frameBody c p))).2 := by
  have hbody := length_frameBody c p
  constructor
  · rw [frame, List.getElem?_append_right (by omega), hbody, Nat.sub_self]
    rfl
  · rw [frame, List.getElem?_append_right (by omega), hbody, show 5 + p.length - (4 + p.length) = 1 by omega]
    rfl

/-- A frame's payload stands from offset 4 on (R100). -/
theorem getElem?_frame_payload (c : Config) {p : List Byte} {k : Nat} (h : k < p.length) :
    (frame c p)[4 + k]? = p[k]? := by
  rw [frame_eq, List.getElem?_append_right (by rw [length_headerOf]; omega), length_headerOf, Nat.add_sub_cancel_left,
    List.getElem?_append_left h]

/-- Settles O32: the frame is the header, the payload and the trailer, one after another. -/
theorem frameLayout : Obligations.FrameLayout := by
  intro c p hp
  obtain ⟨htrl0, htrl1⟩ := getElem?_frame_trailer c p
  refine ⟨?_, ?_, rfl, rfl, rfl, ⟨_, rfl, toNat_lengthByte hp⟩, fun k hk => getElem?_frame_payload c hk, ?_, ?_⟩
  · rw [length_frame]; omega
  · rw [length_frame]; omega
  · rw [take_frame]; exact htrl0
  · rw [take_frame]; exact htrl1

/-- The state that building the frame of payload `p` leaves (R101). -/
def built (p : List Byte) (s : State) : State :=
  { s with
    tx := (serialized p s).tx, crc := raw s.cfg (frameBody s.cfg p), txLen := BitVec.ofNat 9 (6 + p.length),
    status := { s.status with result := .ok } }

theorem complete_serialized_eq_built (p : List Byte) (s : State) : complete (serialized p s) = .next (built p s) := by
  have hlen : frameLength p.length = 6 + p.length := by simp only [frameLength, hdr, trl]; omega
  rw [complete_serialized rfl, hlen]
  rfl

/-- BUILD_CMD on a payload that fits and stands in TX (R101). -/
theorem execBuildCmd_of_holds {p : List Byte} (hp : p.length ≤ 254) {s : State} (h : Holds s.tx 4 p) :
    execBuildCmd p.length s = .next (built p s) := by
  rw [execBuildCmd_of_le hp, serialize_of_holds h, complete_serialized_eq_built]

/-- BUILD_CMD on a payload with an unwritten byte (R40, R101). -/
theorem execBuildCmd_of_unwritten {n k : Nat} {s : State} (hn : n ≤ 254) (hk : k < n)
    (hnone : Memory.read s.tx (4 + k) = none) :
    ∃ j, j < n ∧ Memory.read s.tx (4 + j) = none ∧ execBuildCmd n s = .fault (.unwrittenByte .tx (4 + j)) := by
  rw [execBuildCmd_of_le hn]
  rcases serialize_cases n s with ⟨p, hl, hh, -⟩ | hfault
  · exact absurd hnone (hh.read_ne_none (hl ▸ hk))
  · exact hfault

/-- TX once BUILD_QUERY has put the tag in its place (R104). -/
def withTag (s : State) : State := s.setTx (s.tx.writeAll 4 s.cfg.qtag.toList)

theorem holds_withTag (s : State) : Holds (withTag s).tx 4 s.cfg.qtag.toList :=
  Holds_writeAll s.tx 4 s.cfg.qtag.toList

/-- BUILD_QUERY builds the frame of the tag (R104). -/
theorem execBuildQuery_eq_built (s : State) :
    execBuildQuery s = .next (built s.cfg.qtag.toList (withTag s)) := by
  rw [execBuildQuery_eq, ← withTag, complete_serialized_eq_built]

/-- The finished frame stands in TX (R101). -/
theorem holds_built {p : List Byte} {s : State} (h : Holds s.tx 4 p) : Holds (built p s).tx 0 (frame s.cfg p) :=
  (holds_frame_serialized h :)

/-- The serializer changes no byte behind the trailer (R101). -/
theorem read_built_of_le (p : List Byte) (s : State) {a : Nat} (h : 6 + p.length ≤ a) :
    Memory.read (built p s).tx a = Memory.read s.tx a :=
  read_serialized_of_ne s.cfg _ s.tx (by omega) (by omega) (by omega)

/-- What the serializer leaves in TX depends on the bytes of TX alone. -/
theorem read_built_congr (p : List Byte) (s : State) {m : Memory} (h : ∀ a, Memory.read m a = Memory.read s.tx a)
    (a : Nat) : Memory.read (built p (s.setTx m)).tx a = Memory.read (built p s).tx a := by
  simp only [built, serialized, State.setTxLen_tx, State.setCrc_tx, State.setTx_tx, State.setTx_cfg,
    read_withTrailer, read_withHeader, h]

/-- CRC_OUT after a build is R16 of the trailer (R101, R32). -/
theorem fin_crc_built {p : List Byte} {s : State} (h : Holds s.tx 4 p) {c0 c1 : Byte}
    (h0 : Memory.read (built p s).tx (4 + p.length) = some c0)
    (h1 : Memory.read (built p s).tx (5 + p.length) = some c1) : fin s.cfg (built p s).crc = r16 s.cfg.order c0 c1 := by
  have hread : ∀ k, k < 6 + p.length → Memory.read (built p s).tx k = (frame s.cfg p)[k]? := fun k hk => by
    have hb := holds_built h k (by rwa [length_frame])
    rwa [Nat.zero_add] at hb
  obtain ⟨htrl0, htrl1⟩ := getElem?_frame_trailer s.cfg p
  cases h0.symm.trans ((hread _ (by omega)).trans htrl0)
  cases h1.symm.trans ((hread _ (by omega)).trans htrl1)
  exact (r16_w16 ..).symm

/-- Settles O34, by the three ends of BUILD_CMD: the frame built, the payload refused, an unwritten byte. -/
theorem buildCmdSerializesThePayload : Obligations.BuildCmdSerializesThePayload := by
  refine ⟨fun s p hp hh => ?_, fun s n hn => execBuildCmd_of_gt hn s,
    fun s n k hn hk hnone => execBuildCmd_of_unwritten hn hk hnone, fun w => ?_⟩
  · refine ⟨built p s, execBuildCmd_of_holds hp hh, holds_built hh, fun a => read_built_of_le p s, ?_,
      fun c0 c1 => fin_crc_built hh⟩
    rw [take_frame]
    rfl
  · obtain ⟨-, -, -, -, -, -, hbuild, -⟩ := opcodeMapIsExact w
    exact hbuild

/-- Settles O35: BUILD_QUERY is the serializer on the tag, which it has put in place. -/
theorem buildQuerySerializesTheTag : Obligations.BuildQuerySerializesTheTag := by
  refine ⟨fun s => ?_, fun w => ?_⟩
  · refine ⟨_, execBuildQuery_eq_built s, holds_built (holds_withTag s), fun a ha => ?_, ?_⟩
    · rw [read_built_of_le _ _ ha, withTag, State.setTx_tx, Memory.read_writeAll, length_qtag, if_neg (by omega)]
    · rw [show 8 = 4 + s.cfg.qtag.toList.length from rfl, take_frame]
      rfl
  · obtain ⟨-, -, -, -, -, -, -, hquery, -⟩ := opcodeMapIsExact w
    refine ⟨hquery, fun hop hne => ?_⟩
    have hrow : opTable[7] ∈ opTable := List.getElem_mem _
    refine decode_error_of_ne hrow (by rw [hop]; rfl) fun hmatch => hne ?_
    exact BitVec.and_allOnes.symm.trans hmatch

/-- Settles O36: the operand check comes first, and N is a 9-bit field. -/
theorem oversizedPayloadIsTooLarge : Obligations.OversizedPayloadIsTooLarge := by
  refine ⟨fun s n hn _ => ⟨_, execBuildCmd_of_gt hn s, rfl, rfl, rfl, rfl, rfl⟩, fun w n hd => ?_⟩
  obtain ⟨-, -, -, -, -, -, hbuild, -⟩ := opcodeMapIsExact w
  obtain ⟨-, rfl⟩ := (hbuild n).mp hd
  rw [← nField_eq_and]
  exact Nat.le_of_lt_succ (nField_lt w)

end Sys2Proof.Machine
end

section
/-! PROOFS. PARSE: everything it can end with, the checks of a datagram, and the round trip of a built frame. -/

namespace Sys2Proof.Machine

/-- The state that a PARSE ending with a framing error leaves (R105, R112). -/
def framingError (r : Result) (kind l : Byte) (s : State) : State :=
  { s with
    rxPlen := l, rxKind := kind, rxCalc := 0, rxRecv := 0,
    status := { result := r, err := true, crcMm := false, isQuery := false, rxOk := false } }

/-- STATUS at the end of a PARSE that compared checksums, from CTRL.CRC_ENFORCE, the query flag and ERR (R105, R108). -/
def checkedStatus (enforce query err : Bool) (want got : Half) : Status :=
  if want ≠ got ∧ enforce = true then
    { result := .crcMismatch, err := true, crcMm := true, isQuery := query, rxOk := false }
  else { result := .ok, err := err, crcMm := decide (want ≠ got), isQuery := query, rxOk := true }

/-- The state that a PARSE leaves which compared the checksum of the body with the trailer `t0`, `t1` (R105). -/
def frameChecked (s : State) (kind l : Byte) (p : List Byte) (t0 t1 : Byte) : State :=
  let r := raw s.cfg (headerOf s.cfg kind l ++ p)
  let want := fin s.cfg r
  let got := r16 s.cfg.order t0 t1
  { s with
    rxPlen := l, rxKind := kind, rxCalc := want, rxRecv := got, crc := r,
    status := checkedStatus s.crcEnforce (decide (l = 4 ∧ p = s.cfg.qtag.toList)) s.status.err want got }

theorem checkedStatus_crcMm (enforce query err : Bool) (want got : Half) :
    (checkedStatus enforce query err want got).crcMm = decide (want ≠ got) := by
  unfold checkedStatus
  split
  · next h => exact (decide_eq_true h.1).symm
  · rfl

theorem checkedStatus_isQuery (enforce query err : Bool) (want got : Half) :
    (checkedStatus enforce query err want got).isQuery = query := by
  unfold checkedStatus
  split <;> rfl

theorem checkedStatus_result (enforce query err : Bool) (want got : Half) :
    (checkedStatus enforce query err want got).result = .ok ∨
      (checkedStatus enforce query err want got).result = .crcMismatch := by
  unfold checkedStatus
  split
  · exact .inr rfl
  · exact .inl rfl

theorem checkedStatus_of_enforced {want got : Half} (h : want ≠ got) (query err : Bool) :
    checkedStatus true query err want got =
      { result := .crcMismatch, err := true, crcMm := true, isQuery := query, rxOk := false } :=
  if_pos ⟨h, rfl⟩

/-- Matching checksums are accepted under either policy, and any under the lax one (R108). -/
theorem checkedStatus_of_accepted {enforce : Bool} {want got : Half} (h : want = got ∨ enforce = false)
    (query err : Bool) : checkedStatus enforce query err want got =
      { result := .ok, err := err, crcMm := decide (want ≠ got), isQuery := query, rxOk := true } := by
  refine if_neg fun ⟨hne, henforce⟩ => ?_
  rcases h with heq | hlax
  · exact hne heq
  · exact Bool.false_ne_true (hlax.symm.trans henforce)

theorem mismatch_eq_decide (want got : Half) : mismatch want got = decide (want ≠ got) := by
  by_cases h : want = got <;> simp [mismatch, h]

theorem queryFlag_eq_decide (tag : QueryTag) (l : Byte) (p : List Byte) :
    queryFlag tag l p = decide (l = 4 ∧ p = tag.toList) := by
  rw [queryFlag, Bool.decide_and, beq_eq_decide, beq_eq_decide]
  rfl

/-- The end of a PARSE that found the checksums `want` and `got` (R105, R108). -/
theorem verdict_eq_checked (want got : Half) (query : Bool) (u : State) :
    verdict (decide (want ≠ got)) (u.setStatus (u.status.parseStarted.checksumStep query (decide (want ≠ got)))) =
      .next (u.setStatus (checkedStatus u.crcEnforce query u.status.err want got)) := by
  rcases verdict_cases (decide (want ≠ got))
    (u.setStatus (u.status.parseStarted.checksumStep query (decide (want ≠ got)))) with ⟨hmm, henforce, hv⟩ | ⟨hok, hv⟩
  · have henforce' : u.crcEnforce = true := henforce
    rw [hv, henforce', checkedStatus_of_enforced (of_decide_eq_true hmm), hmm]
    rfl
  · have hok' : want = got ∨ u.crcEnforce = false := hok.imp_left fun h => not_not.mp (of_decide_eq_false h)
    rw [hv, checkedStatus_of_accepted hok']
    rfl

/-- The checksum step of a PARSE, with the values it leaves (R105, R107, R108). -/
theorem checksumStep_eq (s : State) (kind l : Byte) (p : List Byte) (t0 t1 : Byte) :
    checksumStep (headerOf s.cfg kind l ++ p) t0 t1 ((clearResults s).setRxHeader kind l) =
      .next (frameChecked s kind l p t0 t1) := by
  rw [frameChecked, ← queryFlag_eq_decide]
  generalize hr : raw s.cfg (headerOf s.cfg kind l ++ p) = r
  generalize hgot : r16 s.cfg.order t0 t1 = got
  generalize hwant : fin s.cfg r = want
  refine Eq.trans ?_ (verdict_eq_checked want got (queryFlag s.cfg.qtag l p)
    { s with rxPlen := l, rxKind := kind, rxCalc := want, rxRecv := got, crc := r })
  rw [← mismatch_eq_decide, ← hwant, ← hgot, ← hr]
  rfl

/-- PARSE on a datagram that has a header (R105, R106). -/
theorem execParse_of_header {n : Nat} {s : State} {kind l : Byte} (h4 : 4 ≤ n) (hn : n ≤ 261)
    (hh : Holds s.rx 0 (headerOf s.cfg kind l)) :
    execParse n s = parseBody n ((clearResults s).setRxHeader kind l) := by
  obtain ⟨h0, h1, h2, h3⟩ := (holds_headerOf_iff ..).mp hh
  have hm : markerWrong (clearResults s).cfg (clearResults s).rx = .ok false := markerWrong_false h0 h1
  rw [execParse_of_le hn, parseFrame_of_marker h4 hm]
  exact parseHeader_of_read h2 h3

theorem execParse_of_lt {n : Nat} (h : n < 4) (s : State) : execParse n s = .next (framingError .truncated 0 0 s) := by
  rw [execParse_of_le (by omega), parseFrame_of_lt h]
  rfl

theorem execParse_of_markerWrong {n : Nat} {s : State} (h4 : 4 ≤ n) (hn : n ≤ 261)
    (hm : markerWrong s.cfg s.rx = .ok true) : execParse n s = .next (framingError .badMarker 0 0 s) := by
  have hm' : markerWrong (clearResults s).cfg (clearResults s).rx = .ok true := hm
  rw [execParse_of_le hn, parseFrame_of_markerWrong h4 hm']
  rfl

/-- PARSE on a datagram that ends before its frame (R105). -/
theorem execParse_of_short {n : Nat} {s : State} {kind l : Byte} (h4 : 4 ≤ n) (hn : n ≤ 261)
    (hh : Holds s.rx 0 (headerOf s.cfg kind l)) (hl : n < 6 + l.toNat) :
    execParse n s = .next (framingError .truncated kind l s) := by
  rw [execParse_of_header h4 hn hh, parseBody_of_lt hl]
  rfl

/-- PARSE on a datagram that holds a whole frame, whatever its kind and checksum (R105, R109). -/
theorem execParse_of_datagram {n : Nat} {s : State} {kind l : Byte} {p : List Byte} {t0 t1 : Byte}
    (hp : p.length = l.toNat) (hl : 6 + l.toNat ≤ n) (hn : n ≤ 261)
    (hh : Holds s.rx 0 (headerOf s.cfg kind l ++ (p ++ [t0, t1]))) :
    execParse n s = .next (frameChecked s kind l p t0 t1) := by
  have hheader := ((Holds_append ..).mp hh).1
  rw [← List.append_assoc] at hh
  obtain ⟨hbody, htrl⟩ := (Holds_append ..).mp hh
  have hlen : (headerOf s.cfg kind l ++ p).length = 4 + l.toNat := by rw [List.length_append, length_headerOf, hp]
  rw [hlen, Nat.zero_add, Holds_cons, Holds_cons] at htrl
  obtain ⟨ht0, ht1, -⟩ := htrl
  rw [show 4 + l.toNat + 1 = 5 + l.toNat by omega] at ht1
  have hsum : parseBody n ((clearResults s).setRxHeader kind l) =
      checksumStep (headerOf s.cfg kind l ++ p) t0 t1 ((clearResults s).setRxHeader kind l) :=
    parseBody_of_holds hl hlen hbody ht0 ht1
  rw [execParse_of_header (by omega) hn hheader, hsum, checksumStep_eq]

/-- The next states of PARSE on `n` bytes that fit the buffer (R105). -/
inductive ParseEnds (n : Nat) (s : State) : State → Prop
  | tooShort (h : n < 4) : ParseEnds n s (framingError .truncated 0 0 s)
  | badMarker (h4 : 4 ≤ n) (hm : markerWrong s.cfg s.rx = .ok true) : ParseEnds n s (framingError .badMarker 0 0 s)
  | truncated (h4 : 4 ≤ n) (kind l : Byte) (hh : Holds s.rx 0 (headerOf s.cfg kind l)) (hl : n < 6 + l.toNat) :
      ParseEnds n s (framingError .truncated kind l s)
  | checked (kind l : Byte) (p : List Byte) (t0 t1 : Byte) (hp : p.length = l.toNat) (hl : 6 + l.toNat ≤ n)
      (hh : Holds s.rx 0 (headerOf s.cfg kind l ++ (p ++ [t0, t1]))) :
      ParseEnds n s (frameChecked s kind l p t0 t1)

/-- The bytes that PARSE reads past a header are a payload and a trailer (R105). -/
theorem parseEnds_checked {n : Nat} {s : State} {kind l : Byte} {bs : List Byte} {t0 t1 : Byte}
    (hheader : Holds s.rx 0 (headerOf s.cfg kind l)) (hl : 6 + l.toNat ≤ n) (hlen : bs.length = 4 + l.toNat)
    (hh : Holds s.rx 0 bs) (h0 : Memory.read s.rx (4 + l.toNat) = some t0)
    (h1 : Memory.read s.rx (5 + l.toNat) = some t1) :
    ∃ p, bs = headerOf s.cfg kind l ++ p ∧ ParseEnds n s (frameChecked s kind l p t0 t1) := by
  have hsplit : Holds s.rx 0 (bs.take 4 ++ bs.drop 4) := by rwa [List.take_append_drop]
  obtain ⟨htake, hdrop⟩ := (Holds_append ..).mp hsplit
  have heq : bs.take 4 = headerOf s.cfg kind l :=
    htake.eq_of_length_eq hheader (by rw [List.length_take, length_headerOf]; omega)
  have hbs : bs = headerOf s.cfg kind l ++ bs.drop 4 := by rw [← heq, List.take_append_drop]
  refine ⟨bs.drop 4, hbs, .checked kind l (bs.drop 4) t0 t1 (by rw [List.length_drop]; omega) hl ?_⟩
  rw [← List.append_assoc, ← hbs, Holds_append, hlen, Nat.zero_add, Holds_cons, Holds_cons]
  exact ⟨hh, h0, by rwa [show 4 + l.toNat + 1 = 5 + l.toNat by omega], Holds_nil _ _⟩

/-- PARSE's next states are exactly the ends above (R105). -/
theorem execParse_next_iff {n : Nat} (hn : n ≤ 261) (s t : State) : execParse n s = .next t ↔ ParseEnds n s t := by
  constructor
  · intro h
    rcases execParse_cases n s with ⟨hgt, -⟩ | ⟨hlt, -⟩ | ⟨h4, -, hm, -⟩ | ⟨h4, -, kind, l, h0, h1, h2, h3, e⟩ |
      ⟨-, -, k, -, -, e⟩
    · omega
    · cases (execParse_of_lt hlt s).symm.trans h
      exact .tooShort hlt
    · cases (execParse_of_markerWrong h4 hn hm).symm.trans h
      exact .badMarker h4 hm
    · have hheader : Holds s.rx 0 (headerOf s.cfg kind l) := (holds_headerOf_iff ..).mpr ⟨h0, h1, h2, h3⟩
      rcases parseBody_cases n ((clearResults s).setRxHeader kind l) with ⟨hl, -⟩ |
        ⟨hl, bs, t0, t1, hlen, hh, ht0, ht1, e'⟩ | ⟨-, k, -, -, e'⟩
      · cases (execParse_of_short h4 hn hheader hl).symm.trans h
        exact .truncated h4 kind l hheader hl
      · obtain ⟨p, rfl, hend⟩ := parseEnds_checked hheader hl hlen hh ht0 ht1
        cases (e.trans (e'.trans (checksumStep_eq ..))).symm.trans h
        exact hend
      · cases (e.trans e').symm.trans h
    · cases e.symm.trans h
  · intro h
    cases h with
    | tooShort hlt => exact execParse_of_lt hlt s
    | badMarker h4 hm => exact execParse_of_markerWrong h4 hn hm
    | truncated h4 kind l hh hl => exact execParse_of_short h4 hn hh hl
    | checked kind l p t0 t1 hp hl hh => exact execParse_of_datagram hp hl hn hh

/-- PARSE ends with a framing error, or it compared the checksums (R105). -/
theorem ParseEnds.framingError_or_checked {n : Nat} {s t : State} (h : ParseEnds n s t) :
    (∃ r kind l, (r = .truncated ∨ r = .badMarker) ∧ t = framingError r kind l s) ∨
    ∃ kind l p t0 t1, p.length = l.toNat ∧ Holds s.rx 0 (headerOf s.cfg kind l ++ (p ++ [t0, t1])) ∧
      t = frameChecked s kind l p t0 t1 := by
  cases h with
  | tooShort => exact .inl ⟨_, _, _, .inl rfl, rfl⟩
  | badMarker => exact .inl ⟨_, _, _, .inr rfl, rfl⟩
  | truncated h4 kind l => exact .inl ⟨_, _, _, .inl rfl, rfl⟩
  | checked kind l p t0 t1 hp hl hh => exact .inr ⟨kind, l, p, t0, t1, hp, hh, rfl⟩

/-- A framing error is not one of the ends of the checksum step (R105). -/
theorem framingError_not_reached {r : Result} (h : r = .truncated ∨ r = .badMarker) (kind l : Byte) (s : State) :
    ¬((framingError r kind l s).status.result = .ok ∨ (framingError r kind l s).status.result = .crcMismatch) := by
  rcases h with rfl | rfl <;> exact nofun

end Sys2Proof.Machine
end

section
/-! PROOFS. The statements about PARSE, from its ends and from where it stops. -/

namespace Sys2Proof.Machine

/-- PARSE accepts a frame that stands in RX, under either checksum policy (R105, R110). -/
theorem execParse_frame {m : Nat} {u : State} {p : List Byte} (hp : p.length ≤ 255) (hl : 6 + p.length ≤ m)
    (hm : m ≤ 261) (hh : Holds u.rx 0 (frame u.cfg p)) :
    execParse m u = .next { u with
      rxPlen := lengthByte p.length, rxKind := u.cfg.kind, crc := raw u.cfg (frameBody u.cfg p),
      rxCalc := checksum u.cfg (frameBody u.cfg p), rxRecv := checksum u.cfg (frameBody u.cfg p),
      status := { result := .ok, err := u.status.err, crcMm := false,
                  isQuery := decide (lengthByte p.length = 4 ∧ p = u.cfg.qtag.toList), rxOk := true } } := by
  have hlen : (lengthByte p.length).toNat = p.length := toNat_lengthByte hp
  rw [frame_eq] at hh
  rw [execParse_of_datagram hlen.symm (by rwa [hlen]) hm hh, frameChecked, r16_w16, ← frameBody_eq, ← checksum,
    checkedStatus_of_accepted (.inl rfl)]
  simp only [ne_eq, not_true_eq_false, decide_false]

/-- A built frame, copied to RX of a block of the same configuration, stands there. -/
theorem holds_copy_of_built {p : List Byte} {s u : State} (h : Holds s.tx 4 p) (hcfg : u.cfg = (built p s).cfg)
    (hcopy : ∀ k, k < 6 + p.length → Memory.read u.rx k = Memory.read (built p s).tx k) :
    Holds u.rx 0 (frame u.cfg p) := by
  have hcfg' : u.cfg = s.cfg := hcfg
  rw [hcfg']
  refine (Holds_congr fun k hk => ?_).mpr (holds_built h)
  rw [length_frame] at hk
  rw [Nat.zero_add]
  exact hcopy k hk

/-- The payload of a frame stands from index 4 on. -/
theorem holds_payload_of_frame {c : Config} {m : Memory} {p : List Byte} (h : Holds m 0 (frame c p)) : Holds m 4 p := by
  rw [frame_eq] at h
  exact ((Holds_append ..).mp ((Holds_append ..).mp h).2).1

/-- PARSE of a copied build ends OK with the build's kind, payload length and CRC_OUT (R110). -/
theorem execParse_copy_of_built {p : List Byte} {s u : State} {m : Nat} (hp : p.length ≤ 254) (h : Holds s.tx 4 p)
    (hcfg : u.cfg = (built p s).cfg)
    (hcopy : ∀ k, k < 6 + p.length → Memory.read u.rx k = Memory.read (built p s).tx k)
    (hl : 6 + p.length ≤ m) (hm : m ≤ 261) :
    execParse m u = .next { u with
      rxPlen := lengthByte p.length, rxKind := s.cfg.kind, crc := (built p s).crc,
      rxCalc := fin s.cfg (built p s).crc, rxRecv := fin s.cfg (built p s).crc,
      status := { result := .ok, err := u.status.err, crcMm := false,
                  isQuery := decide (lengthByte p.length = 4 ∧ p = s.cfg.qtag.toList), rxOk := true } } := by
  have hframe : Holds u.rx 0 (frame u.cfg p) := holds_copy_of_built h hcfg hcopy
  have hcfg' : u.cfg = s.cfg := hcfg
  rw [execParse_frame (by omega) hl hm hframe, hcfg']
  rfl

/-- Settles O41: the copy is a frame that PARSE accepts, with the build's own checksum on both sides. -/
theorem builtFramesParseBack : Obligations.BuiltFramesParseBack := by
  constructor
  · intro s p hp hh
    refine ⟨built p s, execBuildCmd_of_holds hp hh, fun u m hcfg hcopy hl hm => ?_⟩
    have hpayload : Holds u.rx 4 p := holds_payload_of_frame (holds_copy_of_built hh hcfg hcopy)
    exact ⟨_, execParse_copy_of_built hp hh hcfg hcopy hl hm, rfl, rfl, rfl, toNat_lengthByte (by omega), rfl, rfl, rfl,
      hpayload⟩
  · intro s
    have hh : Holds (withTag s).tx 4 s.cfg.qtag.toList := holds_withTag s
    refine ⟨_, execBuildQuery_eq_built s, fun u m hcfg hcopy hl hm => ?_⟩
    have hpayload : Holds u.rx 4 s.cfg.qtag.toList := holds_payload_of_frame (holds_copy_of_built hh hcfg hcopy)
    have hfits : s.cfg.qtag.toList.length ≤ 254 := (length_qtag _).trans_le (by decide)
    exact ⟨_, execParse_copy_of_built hfits hh hcfg hcopy hl hm, rfl, rfl, rfl, decide_eq_true ⟨rfl, rfl⟩, rfl, rfl, rfl,
      rfl, hpayload⟩

theorem markerWrong_of_unwritten_first {m : Memory} (c : Config) (h0 : Memory.read m 0 = none) :
    markerWrong c m = .error (.unwrittenByte .rx 0) := by
  simp [markerWrong, readByte, h0]

theorem markerWrong_of_unwritten_second {c : Config} {m : Memory} (h0 : Memory.read m 0 = some (markerBytes c).1)
    (h1 : Memory.read m 1 = none) : markerWrong c m = .error (.unwrittenByte .rx 1) := by
  simp [markerWrong, readByte, h0, h1]

/-- A wrong first byte is a wrong marker, whether RX[1] is written or not (R105, log 6). -/
theorem markerWrong_of_first_ne {c : Config} {m : Memory} {b : Byte} (h0 : Memory.read m 0 = some b)
    (hb : b ≠ (markerBytes c).1) : markerWrong c m = .ok true := by
  simp [markerWrong, readByte, h0, hb]

theorem markerWrong_of_second_ne {c : Config} {m : Memory} {b : Byte} (h0 : Memory.read m 0 = some (markerBytes c).1)
    (h1 : Memory.read m 1 = some b) (hb : b ≠ (markerBytes c).2) : markerWrong c m = .ok true := by
  simp [markerWrong, readByte, h0, h1, hb]

theorem parseHeader_of_unwritten_kind {s : State} (n : Nat) (h2 : Memory.read s.rx 2 = none) :
    parseHeader n s = .fault (.unwrittenByte .rx 2) := by
  simp [parseHeader, readByte, h2]

theorem parseHeader_of_unwritten_plen {s : State} {kind : Byte} (n : Nat) (h2 : Memory.read s.rx 2 = some kind)
    (h3 : Memory.read s.rx 3 = none) : parseHeader n s = .fault (.unwrittenByte .rx 3) := by
  simp [parseHeader, readByte, h2, h3]

theorem parseFrame_of_markerFault {n : Nat} {s : State} {f : Fault} (h4 : 4 ≤ n)
    (hm : markerWrong s.cfg s.rx = .error f) : parseFrame n s = .fault f := by
  simp [parseFrame, hdr, Nat.not_lt.mpr h4, hm]

/-- PARSE on a datagram whose marker cannot be read (R40, R105). -/
theorem execParse_of_markerFault {n : Nat} {s : State} {f : Fault} (h4 : 4 ≤ n) (hn : n ≤ 261)
    (hm : markerWrong s.cfg s.rx = .error f) : execParse n s = .fault f :=
  (execParse_of_le hn s).trans (parseFrame_of_markerFault (s := clearResults s) h4 hm)

/-- PARSE on a datagram with the marker (R105). -/
theorem execParse_of_marker {n : Nat} {s : State} (h4 : 4 ≤ n) (hn : n ≤ 261)
    (hm : markerWrong s.cfg s.rx = .ok false) : execParse n s = parseHeader n (clearResults s) :=
  (execParse_of_le hn s).trans (parseFrame_of_marker (s := clearResults s) h4 hm)

/-- From the length check on, an unwritten byte of the frame is a fault (R40, R105). -/
theorem parseBody_of_unwritten {n k : Nat} {s : State} (hl : 6 + s.rxPlen.toNat ≤ n) (hk : k < 6 + s.rxPlen.toNat)
    (hnone : Memory.read s.rx k = none) : ∃ j, j < 6 + s.rxPlen.toNat ∧ Memory.read s.rx j = none ∧
      parseBody n s = .fault (.unwrittenByte .rx j) := by
  rcases parseBody_cases n s with ⟨hlt, -⟩ | ⟨-, bs, t0, t1, hlen, hh, h0, h1, -⟩ | ⟨-, hfault⟩
  · omega
  · rcases Nat.lt_or_ge k bs.length with hbody | htrl
    · have hwritten := hh.read_ne_none hbody
      rw [Nat.zero_add] at hwritten
      exact absurd hnone hwritten
    · rcases (by omega : k = 4 + s.rxPlen.toNat ∨ k = 5 + s.rxPlen.toNat) with rfl | rfl
      · cases hnone.symm.trans h0
      · cases hnone.symm.trans h1
  · exact hfault

/-- Settles O37, check by check in PARSE's order. -/
theorem parseChecksTheDatagram : Obligations.ParseChecksTheDatagram := by
  refine ⟨fun s n hn => execParse_of_gt hn s, fun s n hn => execParse_of_lt hn s, fun s n h4 hn => ⟨?_, ?_, ?_⟩,
    fun s n h4 hn h0 h1 => ?_, fun w => ?_⟩
  · exact fun h0 => execParse_of_markerFault h4 hn (markerWrong_of_unwritten_first _ h0)
  · exact fun h0 h1 => execParse_of_markerFault h4 hn (markerWrong_of_unwritten_second h0 h1)
  · rintro b (⟨h0, hb⟩ | ⟨h0, h1, hb⟩)
    · exact execParse_of_markerWrong h4 hn (markerWrong_of_first_ne h0 hb)
    · exact execParse_of_markerWrong h4 hn (markerWrong_of_second_ne h0 h1 hb)
  · have hmarker : execParse n s = parseHeader n (clearResults s) := execParse_of_marker h4 hn (markerWrong_false h0 h1)
    refine ⟨fun h2 => hmarker.trans (parseHeader_of_unwritten_kind n h2), fun kind h2 =>
      ⟨fun h3 => hmarker.trans (parseHeader_of_unwritten_plen n h2 h3), fun l h3 => ?_⟩⟩
    have hheader : Holds s.rx 0 (headerOf s.cfg kind l) := (holds_headerOf_iff ..).mpr ⟨h0, h1, h2, h3⟩
    refine ⟨fun hl => execParse_of_short h4 hn hheader hl, fun hl k hk hnone => ?_, fun hl p t0 t1 hp hh => ?_⟩
    · obtain ⟨j, hj, hjnone, e⟩ := parseBody_of_unwritten (s := (clearResults s).setRxHeader kind l) hl hk hnone
      exact ⟨j, hj, hjnone, (execParse_of_header h4 hn hheader).trans e⟩
    · have e := execParse_of_datagram hp hl hn ((Holds_append ..).mpr ⟨hheader, hh⟩)
      simp only [frameChecked, checkedStatus, raw, feed, headerOf, markerBytes] at e
      exact e
  · obtain ⟨-, -, -, -, -, -, -, -, hparse⟩ := opcodeMapIsExact w
    exact hparse

/-- Settles O42: both framing errors end before a result is set. -/
theorem framingErrorsLeaveNoResult : Obligations.FramingErrorsLeaveNoResult := by
  intro s n b0 b1
  refine ⟨fun hn => ⟨_, execParse_of_lt hn s, rfl, rfl, rfl, rfl, rfl, rfl, rfl, rfl, rfl⟩, fun h4 hn h0 h1 hne => ?_⟩
  have hm : markerWrong s.cfg s.rx = .ok true := by
    by_cases hb0 : b0 = (markerBytes s.cfg).1
    · subst hb0
      exact markerWrong_of_second_ne h0 h1 fun hb1 => hne (Prod.ext rfl hb1)
    · exact markerWrong_of_first_ne h0 hb0
  exact ⟨_, execParse_of_markerWrong h4 hn hm, rfl, rfl, rfl, rfl, rfl, rfl, rfl, rfl, rfl⟩

/-- The payload is the tag exactly when RX[4..7] holds the tag's bytes (R107). -/
theorem payload_eq_qtag_iff {m : Memory} {p : List Byte} (q : QueryTag) (hl : p.length = 4) (hh : Holds m 4 p) :
    p = q.toList ↔ Memory.read m 4 = some q.b0 ∧ Memory.read m 5 = some q.b1 ∧ Memory.read m 6 = some q.b2 ∧
      Memory.read m 7 = some q.b3 := by
  have hbytes : Holds m 4 q.toList ↔ Memory.read m 4 = some q.b0 ∧ Memory.read m 5 = some q.b1 ∧
      Memory.read m 6 = some q.b2 ∧ Memory.read m 7 = some q.b3 := by
    simp [QueryTag.toList, Holds_cons]
  rw [← hbytes]
  exact ⟨fun h => h ▸ hh, fun h => hh.eq_of_length_eq h hl⟩

/-- Settles O38: a framing error leaves the flag 0, and the checksum step computes it from the bytes that PARSE read;
putting the tag where it stands already changes no byte. -/
theorem queryFlagMeansTagPayload : Obligations.QueryFlagMeansTagPayload := by
  constructor
  · intro s t n hn h
    rcases ((execParse_next_iff hn s t).mp h).framingError_or_checked with ⟨r, kind, l, hr, rfl⟩ |
      ⟨kind, l, p, t0, t1, hp, hh, rfl⟩
    · exact iff_of_false nofun fun ⟨hreached, _⟩ => framingError_not_reached hr kind l s hreached
    · obtain ⟨hheader, hrest⟩ := (Holds_append ..).mp hh
      obtain ⟨-, -, -, h3⟩ := (holds_headerOf_iff ..).mp hheader
      have hpayload : Holds s.rx 4 p := ((Holds_append ..).mp hrest).1
      have hreached : (frameChecked s kind l p t0 t1).status.result = .ok ∨
          (frameChecked s kind l p t0 t1).status.result = .crcMismatch := checkedStatus_result ..
      have hflag : (frameChecked s kind l p t0 t1).status.isQuery = decide (l = 4 ∧ p = s.cfg.qtag.toList) :=
        checkedStatus_isQuery ..
      rw [hflag, decide_eq_true_iff, h3, Option.some.injEq, iff_true_intro hreached, true_and]
      exact and_congr_right fun hl => payload_eq_qtag_iff s.cfg.qtag (hp.trans (congrArg BitVec.toNat hl)) hpayload
  · intro s hh
    refine ⟨_, _, execBuildCmd_of_holds ((length_qtag _).trans_le (by decide)) hh, execBuildQuery_eq_built s, fun a => ?_⟩
    exact (read_built_congr s.cfg.qtag.toList s (read_writeAll_of_holds hh) a).symm

/-- Settles O39, by the two ends of the checksum step; the bytes in RX are the ones that PARSE read. -/
theorem checksumPolicyFollowsEnforce : Obligations.ChecksumPolicyFollowsEnforce := by
  intro s t n hn h hreached
  rcases ((execParse_next_iff hn s t).mp h).framingError_or_checked with ⟨r, kind, l, hr, rfl⟩ |
    ⟨kind, l, p, t0, t1, hp, hh, rfl⟩
  · exact absurd hreached (framingError_not_reached hr kind l s)
  have hmm : (frameChecked s kind l p t0 t1).status.crcMm = true ↔
      (frameChecked s kind l p t0 t1).rxCalc ≠ (frameChecked s kind l p t0 t1).rxRecv :=
    (Bool.eq_iff_iff.mp (checkedStatus_crcMm ..)).trans decide_eq_true_iff
  refine ⟨fun l' bs u0 u1 hread hlen hbytes => ?_, hmm, fun hne henforce => ?_, fun _ hlax => ?_, fun hmatch => ?_⟩
  · obtain ⟨-, -, -, h3⟩ := (holds_headerOf_iff ..).mp ((Holds_append ..).mp hh).1
    cases h3.symm.trans hread
    rw [← List.append_assoc] at hh
    have heq := hbytes.eq_of_length_eq hh (by simp [hlen, hp]; omega)
    obtain ⟨rfl, htrl⟩ := List.append_inj heq (by simp [hlen, hp])
    cases htrl
    exact ⟨rfl, rfl⟩
  · have hstatus : (frameChecked s kind l p t0 t1).status = _ :=
      (congrArg (checkedStatus · ..) henforce).trans (checkedStatus_of_enforced (hmm.mp hne) ..)
    rw [hstatus]
    exact ⟨rfl, rfl⟩
  · have hstatus : (frameChecked s kind l p t0 t1).status = _ := checkedStatus_of_accepted (.inr hlax) ..
    rw [hstatus]
    exact ⟨rfl, rfl⟩
  · have heq : (frameChecked s kind l p t0 t1).rxCalc = (frameChecked s kind l p t0 t1).rxRecv :=
      not_not.mp fun hne => Bool.false_ne_true (hmatch.symm.trans (hmm.mpr hne))
    have hstatus : (frameChecked s kind l p t0 t1).status = _ := checkedStatus_of_accepted (.inl heq) ..
    rw [hstatus]
    exact ⟨rfl, rfl⟩

/-- Past its length check PARSE does not look at N again (R109). -/
theorem parseBody_congr_length {n m : Nat} {s : State} (hn : 6 + s.rxPlen.toNat ≤ n) (hm : 6 + s.rxPlen.toNat ≤ m) :
    parseBody n s = parseBody m s := by
  have hlong : ∀ j, 6 + s.rxPlen.toNat ≤ j → ¬j < frameLength s.rxPlen.toNat := fun j hj => by
    simp only [frameLength, hdr, trl]; omega
  simp only [parseBody, if_neg (hlong n hn), if_neg (hlong m hm)]

theorem parseHeader_congr_length {n m : Nat} {s : State} {l : Byte} (h3 : Memory.read s.rx 3 = some l)
    (hn : 6 + l.toNat ≤ n) (hm : 6 + l.toNat ≤ m) : parseHeader n s = parseHeader m s := by
  cases h2 : Memory.read s.rx 2 with
  | none => rw [parseHeader_of_unwritten_kind n h2, parseHeader_of_unwritten_kind m h2]
  | some kind =>
    rw [parseHeader_of_read h2 h3, parseHeader_of_read h2 h3]
    exact parseBody_congr_length hn hm

/-- A datagram that holds its whole frame may be given any length from the frame's on (R109). -/
theorem execParse_congr_length {n m : Nat} {s : State} {l : Byte} (h3 : Memory.read s.rx 3 = some l)
    (hnl : 6 + l.toNat ≤ n) (hn : n ≤ 261) (hml : 6 + l.toNat ≤ m) (hm : m ≤ 261) : execParse n s = execParse m s := by
  have hn4 : 4 ≤ n := by omega
  have hm4 : 4 ≤ m := by omega
  cases hw : markerWrong s.cfg s.rx with
  | error f => rw [execParse_of_markerFault hn4 hn hw, execParse_of_markerFault hm4 hm hw]
  | ok wrong =>
    cases wrong with
    | true => rw [execParse_of_markerWrong hn4 hn hw, execParse_of_markerWrong hm4 hm hw]
    | false =>
      rw [execParse_of_marker hn4 hn hw, execParse_of_marker hm4 hm hw]
      exact parseHeader_congr_length h3 hnl hml

/-- The marker test reads the first two bytes only (R105). -/
theorem markerWrong_congr (c : Config) {m m' : Memory} (h0 : Memory.read m 0 = Memory.read m' 0)
    (h1 : Memory.read m 1 = Memory.read m' 1) : markerWrong c m = markerWrong c m' := by
  simp only [markerWrong, readByte, h0, h1]

/-- What PARSE answers does not depend on bytes behind the frame (R109). -/
theorem ParseEnds.congr_rx {n : Nat} {s t : State} {l : Byte} {m : Memory} (h : ParseEnds n s t)
    (h3 : Memory.read s.rx 3 = some l) (hl : 6 + l.toNat ≤ n)
    (hm : ∀ k, k < 6 + l.toNat → Memory.read m k = Memory.read s.rx k) :
    ParseEnds n { s with rx := m } { t with rx := m } := by
  cases h with
  | tooShort hlt => omega
  | badMarker h4 hw => exact .badMarker h4 ((markerWrong_congr _ (hm 0 (by omega)) (hm 1 (by omega))).trans hw)
  | truncated h4 kind l' hh hlt =>
    obtain ⟨-, -, -, h3'⟩ := (holds_headerOf_iff ..).mp hh
    cases h3.symm.trans h3'
    omega
  | checked kind l' p t0 t1 hp hl' hh =>
    obtain ⟨-, -, -, h3'⟩ := (holds_headerOf_iff ..).mp ((Holds_append ..).mp hh).1
    cases h3.symm.trans h3'
    refine .checked (s := { s with rx := m }) kind l p t0 t1 hp hl ((Holds_congr fun k hk => ?_).mpr hh)
    rw [Nat.zero_add]
    refine hm k ?_
    rw [List.length_append, List.length_append, length_headerOf, hp] at hk
    exact hk.trans_eq (by simp only [List.length_cons, List.length_nil]; omega)

/-- Settles O40: neither the length nor the bytes behind the frame decide PARSE's end. -/
theorem trailingBytesAreIgnored : Obligations.TrailingBytesAreIgnored := by
  intro s n l h3 hl hn
  refine ⟨execParse_congr_length h3 hl hn le_rfl (by omega), fun m t hm h => ?_⟩
  have hends : ParseEnds n s t := (execParse_next_iff hn s t).mp h
  exact (execParse_next_iff hn _ _).mpr (hends.congr_rx h3 hl hm)

end Sys2Proof.Machine
end

section
/-! PROOFS. The control commands and the illegal word: what each leaves, and the one word of a command without
operands. -/

namespace Sys2Proof.Machine

/-- Settles O10: a rejected word ends by `raise`; the two example words have an unlisted opcode and a reserved bit. -/
theorem illegalWordChangesStatusOnly : Obligations.IllegalWordChangesStatusOnly := by
  refine ⟨fun w e s he => ?_, ?_, ?_⟩
  · rw [runCommand_of_error he, raise_eq]
  · have hunlisted : (0x05000000#32 >>> 24).toNat ∉ opTable.map rowOpcode := by decide
    exact (decode_error_iff_opcode _).mpr (.inl hunlisted)
  · have hrow : opTable[6] ∈ opTable := List.getElem_mem _
    have hreserved : 0x10800003#32 &&& rowReserved opTable[6] ≠ 0#32 := by decide
    exact decode_error_of_reserved hrow rfl hreserved

/-- A row without operands has one word: another word with its opcode is no command (R67, R73). -/
theorem decode_error_of_operandless {w : Word} {r : OpRow} (hm : r ∈ opTable) (hmask : r.mask = BitVec.allOnes 32)
    (hop : (w >>> 24).toNat = rowOpcode r) (hne : w ≠ r.value) : ∃ e, decode w = .error e := by
  refine decode_error_of_ne hm hop ?_
  rwa [hmask, BitVec.and_allOnes]

/-- Settles O22: the effect is `complete` alone, and the one word is the row's match value. -/
theorem nopSetsResultOnly : Obligations.NopSetsResultOnly := by
  refine ⟨complete_eq, fun w => ?_⟩
  obtain ⟨hnop, -⟩ := opcodeMapIsExact w
  refine ⟨hnop, fun hop hne => ?_⟩
  have hrow : opTable[0] ∈ opTable := List.getElem_mem _
  exact decode_error_of_operandless hrow rfl (by rw [hop]; rfl) hne

/-- Settles O23: the effect is `complete` with ERR cleared, the one word is the row's match value, and every other word
with the opcode runs as an illegal one. -/
theorem clrErrClearsErrOnly : Obligations.ClrErrClearsErrOnly := by
  refine ⟨fun s => complete_eq (s.setStatus s.status.errCleared), fun w => ?_⟩
  obtain ⟨-, -, -, -, -, hclr, -⟩ := opcodeMapIsExact w
  refine ⟨hclr, fun hop hne => ?_⟩
  have hrow : opTable[5] ∈ opTable := List.getElem_mem _
  obtain ⟨e, he⟩ := decode_error_of_operandless hrow rfl (by rw [hop]; rfl) hne
  obtain ⟨hillegal, -⟩ := illegalWordChangesStatusOnly
  exact ⟨⟨e, he⟩, fun s => hillegal w e s he⟩

end Sys2Proof.Machine
end

section
/-! PROOFS. What ILLEGAL, BAD_RANGE and TOO_LARGE leave, and the idle block. -/

namespace Sys2Proof.Machine

/-- A command that ends by `raise` before it has written anything changes RESULT and ERR alone: PARSE's own failures,
which write more, have other results (R131, R132). -/
theorem Effect.eq_of_operandError {s t : State} {i : Instr} (h : Effect s i t)
    (hr : t.status.result = .illegal ∨ t.status.result = .badRange ∨ t.status.result = .tooLarge) :
    t = { s with status := { s.status with result := t.status.result, err := true } } := by
  cases h with
  | crcTxBadRange | crcRxBadRange | tooLarge | parseBadRange => rfl
  | nop | crcInit | crcByte | crcTx | crcRx | clrErr | buildCmd | buildQuery | parseMismatch | parseOk =>
    rcases hr with hr | hr | hr <;> cases hr
  | parseFramingError n hn r hf =>
    have hr : r = .illegal ∨ r = .badRange ∨ r = .tooLarge := hr
    rcases hf with rfl | rfl <;> exact absurd hr (by decide)

/-- Settles O47: a decoded word ends with one of the command's effects, an illegal one by `raise`. -/
theorem operandErrorsChangeStatusOnly : Obligations.OperandErrorsChangeStatusOnly := by
  intro w s t h hr
  rcases runCommand_effect h with ⟨i, -, he⟩ | ⟨-, rfl⟩
  · exact he.eq_of_operandError hr
  · rfl

/-- Settles O18: the empty event list is the step's idle case. -/
theorem idleBlockHoldsItsState : Obligations.IdleBlockHoldsItsState :=
  fun _ => step_nil

end Sys2Proof.Machine
end

section
/-! PROOFS. What a command does not depend on, and when it cannot stop: the RESULT that PARSE finds, and commands on
written buffers. -/

namespace Sys2Proof.Machine

/-- `s` with another RESULT, all else kept. -/
def State.withResult (s : State) (r : Result) : State := s.setStatus { s.status with result := r }

@[simp] theorem State.withResult_cfg (s : State) (r : Result) : (s.withResult r).cfg = s.cfg := rfl
@[simp] theorem State.withResult_rx (s : State) (r : Result) : (s.withResult r).rx = s.rx := rfl
@[simp] theorem State.withResult_rxPlen (s : State) (r : Result) : (s.withResult r).rxPlen = s.rxPlen := rfl
@[simp] theorem State.withResult_setRxHeader (s : State) (r : Result) (kind plen : Byte) :
    (s.withResult r).setRxHeader kind plen = (s.setRxHeader kind plen).withResult r := rfl

/-- A failure writes RESULT, so the one before is forgotten (R131). -/
theorem raise_withResult (q r : Result) (s : State) : raise q (s.withResult r) = raise q s := rfl

/-- So do both ends of PARSE's checksum step, which carries RESULT along without reading it (R105, R108, R131). -/
theorem checksumStep_withResult (bs : List Byte) (t0 t1 : Byte) (r : Result) (s : State) :
    checksumStep bs t0 t1 (s.withResult r) = checksumStep bs t0 t1 s := rfl

/-- From the length check on, PARSE ends by `raise` on a short datagram, else by a fault or the checksum step (R105). -/
theorem parseBody_withResult (n : Nat) (r : Result) (s : State) : parseBody n (s.withResult r) = parseBody n s := by
  by_cases hshort : n < frameLength s.rxPlen.toNat
  · simp [parseBody, hshort, raise_withResult]
  · simp [parseBody, hshort, checksumStep_withResult]

theorem parseHeader_withResult (n : Nat) (r : Result) (s : State) :
    parseHeader n (s.withResult r) = parseHeader n s := by
  simp [parseHeader, parseBody_withResult]

/-- No end of PARSE past its operand check keeps the RESULT it found (R105). -/
theorem parseFrame_withResult (n : Nat) (r : Result) (s : State) : parseFrame n (s.withResult r) = parseFrame n s := by
  simp [parseFrame, raise_withResult, parseHeader_withResult]

/-- Settles O43: PARSE clears every register and flag of an earlier PARSE, and each of its ends writes RESULT. -/
theorem parseForgetsEarlierResults : Obligations.ParseForgetsEarlierResults := by
  intro s n plen kind want got r mm q ok hn
  have hforget : parseFrame n ((clearResults s).withResult r) = parseFrame n (clearResults s) :=
    parseFrame_withResult ..
  exact (execParse_of_le hn _).trans (hforget.trans (execParse_of_le hn s).symm)

theorem FullyWritten.read_ne_none {s : State} (h : FullyWritten s) (b : Buffer) {k : Nat} (hk : k < bufSize) :
    Memory.read (s.buffer b) k ≠ none := by
  obtain ⟨⟨x, htx⟩, y, hrx⟩ := h k hk
  cases b with
  | tx => exact ne_of_eq_of_ne htx (Option.some_ne_none x)
  | rx => exact ne_of_eq_of_ne hrx (Option.some_ne_none y)

/-- Settles O49: a command stops only on an unwritten byte, and there is none. -/
theorem everyCommandCompletesOnWrittenBuffers : Obligations.EveryCommandCompletesOnWrittenBuffers := by
  intro i s h
  rcases commandsStopOnlyOnUnwrittenBytes i s with hnext | ⟨b, k, -, hk, hnone⟩
  · exact hnext
  · exact absurd hnone (h.read_ne_none b hk)

end Sys2Proof.Machine
end
